-- ==== Sys2Proof/Word.lean ====
section
/-! DEFINITION. The data the engine works on: bytes, four-byte key-schedule words, and sixteen-byte
matrices seen as four rows of four bytes (00_scope.md R8, R9, R10). Only the plainest access is here;
every rule a test could show wrong is under Machine/. -/

namespace Sys2Proof

/-- An unsigned 8-bit value (00_scope.md R8). -/
abbrev Byte := BitVec 8

/-- A key-schedule word: four bytes, `b0` the first byte (00_scope.md R10). -/
structure Word where
  b0 : Byte
  b1 : Byte
  b2 : Byte
  b3 : Byte
  deriving DecidableEq, Repr

/-- Byte `j` of a word, `w[j]` (00_scope.md R10). -/
def Word.get (w : Word) (j : Fin 4) : Byte :=
  match j with
  | 0 => w.b0
  | 1 => w.b1
  | 2 => w.b2
  | 3 => w.b3

/-- The word whose byte `j` is `f j`. -/
def Word.ofFn (f : Fin 4 → Byte) : Word := ⟨f 0, f 1, f 2, f 3⟩

/-- The word of four zero bytes. -/
def Word.zero : Word := ⟨0, 0, 0, 0⟩

/-- Sixteen bytes, or equally a 4×4 matrix kept row by row (00_scope.md R9): `r0` is row 0, that is
bytes 0 to 3, and so on. The state matrix, a round key and a ciphertext all have this shape. -/
structure Block where
  r0 : Word
  r1 : Word
  r2 : Word
  r3 : Word
  deriving DecidableEq, Repr

/-- Row `r` of a matrix. -/
def Block.row (X : Block) (r : Fin 4) : Word :=
  match r with
  | 0 => X.r0
  | 1 => X.r1
  | 2 => X.r2
  | 3 => X.r3

/-- `X[r][c]` (00_scope.md R9): `r` the row, `c` the column. -/
def Block.get (X : Block) (r c : Fin 4) : Byte := (X.row r).get c

/-- The matrix with `f r c` in row `r` and column `c`. -/
def Block.ofFn (f : Fin 4 → Fin 4 → Byte) : Block :=
  ⟨Word.ofFn (f 0), Word.ofFn (f 1), Word.ofFn (f 2), Word.ofFn (f 3)⟩

/-- Byte `k` of the sixteen: `X[r][c]` is byte `4*r + c` (00_scope.md R9), so `r = k / 4` and
`c = k % 4`. -/
def Block.byte (X : Block) (k : Fin 16) : Byte :=
  X.get ⟨k.val / 4, by omega⟩ ⟨k.val % 4, by omega⟩

/-- The sixteen bytes `f 0, …, f 15`, in row-major order. -/
def Block.ofBytes (f : Fin 16 → Byte) : Block :=
  Block.ofFn fun r c => f ⟨4 * r.val + c.val, by omega⟩

/-- Sixteen zero bytes. -/
def Block.zero : Block := ⟨Word.zero, Word.zero, Word.zero, Word.zero⟩

/-- The key store's contents: 44 words of 4 bytes (10_state.md R23). -/
abbrev KeyStore := Vector Word 44

end Sys2Proof
end

