-- ==== Sys2Proof/Syntax.lean ====
section
/-! DEFINITION. What the host can put on the engine's ports: the command triple, its four decoded
forms (one constructor per row of spec/opcode_table.json), the port values of one cycle, what a host
does over time, and the lines of the assembly language (10_state.md R20; 30_encoding.md R80, R83, R87,
R88). -/

namespace Sys2Proof

/-- A command as it is sampled at its accepting edge: the command word and the two operand ports
(30_encoding.md R80). -/
structure Command where
  /-- `cmd = {len[3:0], op[1:0]}`. -/
  cmd : BitVec 6
  /-- `key_in`, byte 0 in bits [127:120]. -/
  keyIn : BitVec 128
  /-- `data_in`, byte 0 in bits [127:120]. -/
  dataIn : BitVec 128
  deriving DecidableEq, Repr

/-- A decoded command. Every row carries all the fields of the triple, those it ignores too, so that
R84 ("Ignored fields are don't-care") is something a theorem can say and encoding loses no bit. -/
inductive Instr where
  /-- LOAD_KEY, `op` = 0b00 (R83): uses `key_in`, ignores `len` and `data_in`. -/
  | loadKey (len : BitVec 4) (keyIn dataIn : BitVec 128)
  /-- ENCRYPT, `op` = 0b01 (R83): uses `data_in`, ignores `len` and `key_in`. -/
  | encrypt (len : BitVec 4) (keyIn dataIn : BitVec 128)
  /-- ENCRYPT_PAD, `op` = 0b10 (R83): uses `len` and bytes 0 to `len - 1` of `data_in`. -/
  | encryptPad (len : BitVec 4) (keyIn dataIn : BitVec 128)
  /-- RSVD, `op` = 0b11 (R83): uses nothing. -/
  | rsvd (len : BitVec 4) (keyIn dataIn : BitVec 128)
  deriving DecidableEq, Repr

/-- The values on the engine's input ports during one cycle (10_state.md R20; `clk` is the step
itself). -/
structure Pins where
  rst : Bool
  cmdValid : Bool
  cmd : BitVec 6
  keyIn : BitVec 128
  dataIn : BitVec 128
  rkIdx : BitVec 6
  deriving DecidableEq, Repr

/-- The command standing on the ports. -/
def Pins.command (p : Pins) : Command := ⟨p.cmd, p.keyIn, p.dataIn⟩

/-- What the host does next at the ports. The engine has no command queue (10_state.md R32); a list
of these is the HOST's plan, which the step reads. -/
inductive HostAction where
  /-- Drive exactly these values for one rising edge, whatever the engine does. -/
  | drive (p : Pins)
  /-- Offer a command: hold `cmd_valid` = 1 with the same operands until the edge that accepts it
  (70_reset_and_hazards.md R216; 30_encoding.md R88). -/
  | offer (c : Command)
  /-- `WAITREADY`: hold `cmd_valid` = 0 and clock until `cmd_ready` = 1 (30_encoding.md R88). -/
  | waitReady
  /-- `IDLE <n>`: hold `cmd_valid` = 0 for `n` rising edges (30_encoding.md R88). -/
  | idle (n : Nat)
  /-- `RESET`: hold `rst` = 1 for one rising edge (30_encoding.md R88). -/
  | reset
  deriving DecidableEq, Repr

/-- One line of a program: the four command lines of 30_encoding.md R87 and the six
pseudo-instructions of R88. Hex operands are byte lists, byte 0 first. -/
inductive AsmLine where
  | loadKey (key : List Byte)
  | enc (block : List Byte)
  | encPad (len : Nat) (chunk : List Byte)
  | rsvd (len : Nat)
  | waitReady
  | idle (n : Nat)
  | reset
  | padBlock
  | encLast (chunk : List Byte)
  | encStream (bytes : List Byte)
  deriving DecidableEq, Repr

end Sys2Proof
end

