-- ==== Sys2Proof/WellFormed.lean ====
section
/-! DEFINITION. The checks the types of Syntax do not make. A decoded command (`Instr`) needs none:
its fields have exactly the widths of 30_encoding.md R81 and 10_state.md R20, and every value of them
is a command (R84, R85). What does need checks is a command word given as a number, and a line of the
assembly language (R87, R88). -/

namespace Sys2Proof

/-- A number is a command word when it fits the 6 bits of `cmd` (30_encoding.md R80, R81). -/
def commandWordWellFormed (w : Nat) : Bool := decide (w < 64)

/-- The operand bounds of 30_encoding.md R87 and R88: a key and a block are exactly 16 bytes ("exactly
32 hex digits"), `<len>` is an integer 0 to 15, a chunk of `ENCPAD` has `len` bytes ("chunk:2*len hex"),
and a chunk of `ENCLAST` has 0 to 15 bytes ("chunk:0..30 hex"). -/
def AsmLine.wellFormed : AsmLine → Bool
  | .loadKey key => decide (key.length = 16)
  | .enc block => decide (block.length = 16)
  | .encPad len chunk => decide (len ≤ 15) && decide (chunk.length = len)
  | .rsvd len => decide (len ≤ 15)
  | .waitReady => true
  | .idle _ => true
  | .reset => true
  | .padBlock => true
  | .encLast chunk => decide (chunk.length ≤ 15)
  | .encStream _ => true

end Sys2Proof
end

