-- ==== Sys2Proof/Decode.lean ====
section
/-! DEFINITION. The command decoder and, after it, the encoder (30_encoding.md R80 to R86). Decoding
a sampled triple is total: the four values of `op` cover all 64 command words (R83). A number read from
the opcode table is refused by name when it is no 6-bit command word. -/

namespace Sys2Proof

/-- Why a number is no command word. -/
inductive DecodeError where
  /-- The number does not fit the 6-bit `cmd` port (30_encoding.md R80). Safe: nothing is executed. -/
  | commandWordTooWide
  deriving DecidableEq, Repr

/-- Field `op = cmd[1:0]` (30_encoding.md R81). -/
def opField (cmd : BitVec 6) : BitVec 2 := cmd.extractLsb' 0 2

/-- Field `len = cmd[5:2]` (30_encoding.md R81). -/
def lenField (cmd : BitVec 6) : BitVec 4 := cmd.extractLsb' 2 4

/-- The opcode map of 30_encoding.md R83. The last branch is `op` = 0b11, the only value left. -/
def decode (c : Command) : Instr :=
  let op := opField c.cmd
  let len := lenField c.cmd
  if op = 0b00#2 then .loadKey len c.keyIn c.dataIn
  else if op = 0b01#2 then .encrypt len c.keyIn c.dataIn
  else if op = 0b10#2 then .encryptPad len c.keyIn c.dataIn
  else .rsvd len c.keyIn c.dataIn

/-- The command a table word stands for: its 6 bits on `cmd`, zeros on both operand ports. -/
def commandOfTableWord (w : Nat) : Except DecodeError Command :=
  if commandWordWellFormed w then .ok ⟨BitVec.ofNat 6 w, 0, 0⟩ else .error .commandWordTooWide

/-- What `decode` reads from a table word. The command word is the whole instruction (R86), so the
number of bits the table gives a row (6, in whole bytes 8) decides nothing. -/
def decodeTableWord (_nbits w : Nat) : Option Instr :=
  match commandOfTableWord w with
  | .ok c => some (decode c)
  | .error _ => none

/-- The `op` value of each row (30_encoding.md R83). -/
def Instr.op : Instr → BitVec 2
  | .loadKey _ _ _ => 0b00#2
  | .encrypt _ _ _ => 0b01#2
  | .encryptPad _ _ _ => 0b10#2
  | .rsvd _ _ _ => 0b11#2

/-- The `len` field a command carries. -/
def Instr.len : Instr → BitVec 4
  | .loadKey len _ _ => len
  | .encrypt len _ _ => len
  | .encryptPad len _ _ => len
  | .rsvd len _ _ => len

/-- The `key_in` value a command carries. -/
def Instr.keyIn : Instr → BitVec 128
  | .loadKey _ keyIn _ => keyIn
  | .encrypt _ keyIn _ => keyIn
  | .encryptPad _ keyIn _ => keyIn
  | .rsvd _ keyIn _ => keyIn

/-- The `data_in` value a command carries. -/
def Instr.dataIn : Instr → BitVec 128
  | .loadKey _ _ dataIn => dataIn
  | .encrypt _ _ dataIn => dataIn
  | .encryptPad _ _ dataIn => dataIn
  | .rsvd _ _ dataIn => dataIn

/-- `cmd = {len, op}`, the pattern `LLLLOO` (30_encoding.md R81). -/
def encode (i : Instr) : Command := ⟨i.len ++ i.op, i.keyIn, i.dataIn⟩

/-- A row of the opcode table: a command word is of the row when, under the mask, it equals the
match value (30_encoding.md R83). -/
structure OpcodeRow where
  mnemonic : String
  pattern : BitVec 6
  mask : BitVec 6
  deriving DecidableEq, Repr

/-- A command word is of the row. -/
def OpcodeRow.covers (r : OpcodeRow) (cmd : BitVec 6) : Bool := cmd &&& r.mask == r.pattern

/-- "`match`/`mask` for the four rows are 0x00/0x03, 0x01/0x03, 0x02/0x03, 0x03/0x03" (R83). -/
def opcodeTable : List OpcodeRow :=
  [⟨"LOAD_KEY", 0x00, 0x03⟩, ⟨"ENCRYPT", 0x01, 0x03⟩, ⟨"ENCRYPT_PAD", 0x02, 0x03⟩, ⟨"RSVD", 0x03, 0x03⟩]

/-- The row a decoded command belongs to. -/
def Instr.row : Instr → OpcodeRow
  | .loadKey _ _ _ => ⟨"LOAD_KEY", 0x00, 0x03⟩
  | .encrypt _ _ _ => ⟨"ENCRYPT", 0x01, 0x03⟩
  | .encryptPad _ _ _ => ⟨"ENCRYPT_PAD", 0x02, 0x03⟩
  | .rsvd _ _ _ => ⟨"RSVD", 0x03, 0x03⟩

end Sys2Proof
end

