-- ==== Sys2Proof/Machine/State.lean ====
section
/-! DEFINITION. The engine's architectural registers (10_state.md R22), the host that drives its ports
(R20, R32), and the record of a run (70_reset_and_hazards.md R222). All of it is plain data. -/

namespace Sys2Proof.Machine

/-- `phase`, the block state machine's state: "a three-valued enumeration; no other value exists"
(10_state.md R26). -/
inductive Phase where
  | idle
  | keyexp
  | enc
  deriving DecidableEq, Repr

/-- A rejected accepting edge, as the model's own sticky record keeps it
(70_reset_and_hazards.md R222: "the hardware keeps none"). -/
structure Rejection where
  /-- The command word that was rejected. -/
  cmd : BitVec 6
  /-- The `err_code` it was rejected with. -/
  code : BitVec 2
  deriving DecidableEq, Repr

/-- The engine between two rising edges of `clk`, its host, and the record of the run so far. -/
structure State where
  /-- Block state machine's state (R26). -/
  phase : Phase
  /-- 6-bit counter: the next key-store word in KEYEXP, the next round in ENC, 0 in IDLE (R27). -/
  ctr : BitVec 6
  /-- The key store `W[0..43]` (R23). -/
  W : KeyStore
  /-- 1 exactly when `W` holds the complete expansion of the last key (R25). -/
  keyValid : Bool
  /-- The 16-byte state matrix (R22). -/
  S : Block
  /-- The ciphertext of the last completed block (R28). -/
  dout : Block
  /-- 1 from a completion to the next accepting edge (R29). -/
  outValid : Bool
  /-- The last accepted command was rejected (R30). -/
  err : Bool
  /-- Why (R30, 60_exceptions.md R191). -/
  errCode : BitVec 2
  /-- The host's plan from the next edge on: no register of the engine, an input. -/
  script : List HostAction
  /-- `status` sampled after each accepting edge of the run, oldest first (R222). -/
  statusLog : List (BitVec 8)
  /-- `dout` sampled after each completing edge of the run, oldest first (R217, R222). -/
  doutLog : List Block
  /-- The model's sticky record of rejected accepting edges, oldest first (R222). -/
  rejectLog : List Rejection
  deriving DecidableEq, Repr

/-- The engine right after a reset edge (70_reset_and_hazards.md R210, R214), with a host that
offers nothing and an empty record. -/
def State.reset : State where
  phase := .idle
  ctr := 0
  W := Vector.replicate 44 Word.zero
  keyValid := false
  S := Block.zero
  dout := Block.zero
  outValid := false
  err := false
  errCode := 0
  script := []
  statusLog := []
  doutLog := []
  rejectLog := []

/-- Why a step stops. No run from reset meets one (the invariant of Safety.lean rules it out). -/
inductive Fault where
  /-- KEYEXP with `ctr` outside 4 to 43, or ENC with `ctr` outside 1 to 10, raised by the KEYEXP and
  ENC edges (Machine/Ops.lean). 10_state.md R27 says no such pair is reachable and gives it no next
  state. Safe: the model stops where the spec says nothing. -/
  | unreachableSequencer
  deriving DecidableEq, Repr

/-- Why a command has no meaning. Every command has one, so no arm of `exec` raises it. -/
inductive Refusal where
  /-- The command's arm has no meaning yet: raised by an arm of `exec` only. Safe. -/
  | notModelled (mnemonic : String)
  deriving DecidableEq, Repr

end Sys2Proof.Machine
end

