-- ==== Sys2Proof/Machine/Flags.lean ====
section
/-! DEFINITION. The status bits: the handshake, the status vector, the error codes and the common
clear of an accepting edge (10_state.md R29 to R32, R38; 60_exceptions.md R191). -/

namespace Sys2Proof.Machine

/-- `err_code` 0, NONE (60_exceptions.md R191). -/
def codeNone : BitVec 2 := 0

/-- `err_code` 1, ILLEGAL_OP (60_exceptions.md R191). -/
def codeIllegalOp : BitVec 2 := 1

/-- `err_code` 2, NO_KEY (60_exceptions.md R191). -/
def codeNoKey : BitVec 2 := 2

/-- `busy`: 1 iff `phase` ≠ IDLE (10_state.md R31). -/
def State.busy (s : State) : Bool := decide (s.phase ≠ .idle)

/-- `cmd_ready = (phase == IDLE) && (rst == 0)` (10_state.md R32). -/
def State.cmdReady (s : State) (rst : Bool) : Bool := decide (s.phase = .idle) && !rst

/-- The `status` output, bit 7 first: 0, `cmd_ready`, `err_code`, `err`, `out_valid`, `key_valid`,
`busy` (10_state.md R31; decision D27). -/
def State.status (s : State) (rst : Bool) : BitVec 8 :=
  0#1 ++ BitVec.ofBool (s.cmdReady rst) ++ s.errCode ++ BitVec.ofBool s.err ++
    BitVec.ofBool s.outValid ++ BitVec.ofBool s.keyValid ++ BitVec.ofBool s.busy

/-- The common clear of every accepting edge: `out_valid <- 0; err <- 0; err_code <- 0`
(10_state.md R38). -/
def clearOutcome (s : State) : State := { s with outValid := false, err := false, errCode := codeNone }

end Sys2Proof.Machine
end

