-- ==== Sys2Proof/Config.lean ====
section
/-! DEFINITION. The implementation parameters of 00_scope.md R7. The spec leaves none of them open
("No parameter is left open"), so every one is a number and no free value is needed. -/

namespace Sys2Proof.Config

/-- `BLOCK_BYTES`, R7. -/
abbrev blockBytes : Nat := 16

/-- `KEY_BYTES`, R7. -/
abbrev keyBytes : Nat := 16

/-- `NR`, the rounds, R7. -/
abbrev nr : Nat := 10

/-- `NRK`, the round keys, numbered 0 to 10, R7. -/
abbrev nrk : Nat := 11

/-- `NW`, the key-schedule words, numbered 0 to 43, R7. -/
abbrev nw : Nat := 44

/-- `WORD_BYTES`, R7. -/
abbrev wordBytes : Nat := 4

/-- `LAT_KEYEXP`: clock edges of key expansion after the accepting edge, R7 and R221. -/
abbrev latKeyexp : Nat := 40

/-- `LAT_ENC`: clock edges of encryption after the accepting edge, R7 and R221. -/
abbrev latEnc : Nat := 10

end Sys2Proof.Config
end

