-- ==== Sys2Proof/Machine/Field.lean ====
section
/-! DEFINITION. GF(2^8): the engine's table multiplier `gmul`, the field product that is its normative
value, `xtime`, and the definition the S-box was computed from (41_gf_multiplier.md; 40_tables.md R101).
None of it touches the state. -/

namespace Sys2Proof.Machine

/-- `xtime(a)`: shift left and, if bit 7 was set, reduce by 0x1B (41_gf_multiplier.md R113). -/
def xtime (a : Byte) : Byte :=
  if a.getLsbD 7 then (a <<< 1) ^^^ 0x1B else a <<< 1

/-- The reduced index of `gmul`: the exact sum of two logarithms, less 255 when it is at least 255
(41_gf_multiplier.md R111, R114; 90_conflicts.md C1). -/
def logSum (r i : Byte) : Nat :=
  let s := (log r).toNat + (log i).toNat
  if 255 ≤ s then s - 255 else s

/-- The engine's Galois multiplier: the table algorithm of 41_gf_multiplier.md R111. A zero operand
and an operand equal to 1 return before any table is read. -/
def gmul (r i : Byte) : Byte :=
  if r = 0 ∨ i = 0 then 0
  else if r = 1 then i
  else if i = 1 then r
  else antilog (BitVec.ofNat 8 (logSum r i))

/-- The loop of `gf_mul` with `n` turns left (41_gf_multiplier.md R112). -/
def gfMulLoop : Nat → Byte → Byte → Byte → Byte
  | 0, p, _, _ => p
  | n + 1, p, a, b => gfMulLoop n (if b.getLsbD 0 then p ^^^ a else p) (xtime a) (b >>> 1)

/-- The field product modulo x^8+x^4+x^3+x+1, the reference definition of 41_gf_multiplier.md R112. -/
def gfMul (a b : Byte) : Byte := gfMulLoop 8 0 a b

/-- `gfMul a` applied `n` times to 1: the power `a^n`. -/
def gfPow (a : Byte) : Nat → Byte
  | 0 => 1
  | n + 1 => gfMul a (gfPow a n)

/-- Bit `k` of the S-box's affine map applied to `x` (40_tables.md R101). -/
def affineBit (x : Byte) (k : Nat) : Bool :=
  (x.getLsbD k).xor ((x.getLsbD ((k + 4) % 8)).xor ((x.getLsbD ((k + 5) % 8)).xor
    ((x.getLsbD ((k + 6) % 8)).xor ((x.getLsbD ((k + 7) % 8)).xor ((0x63#8).getLsbD k)))))

/-- The affine map `A` of 40_tables.md R101. -/
def affine (x : Byte) : Byte :=
  BitVec.ofBool (affineBit x 7) ++ BitVec.ofBool (affineBit x 6) ++ BitVec.ofBool (affineBit x 5) ++
  BitVec.ofBool (affineBit x 4) ++ BitVec.ofBool (affineBit x 3) ++ BitVec.ofBool (affineBit x 2) ++
  BitVec.ofBool (affineBit x 1) ++ BitVec.ofBool (affineBit x 0)

/-- `x` is `inv(b)` of 40_tables.md R101: 0 for 0, else the multiplicative inverse. -/
def IsInv (b x : Byte) : Prop := (b = 0 ∧ x = 0) ∨ (b ≠ 0 ∧ gfMul b x = 1)

end Sys2Proof.Machine
end

