-- ==== Sys2Proof/Machine/Operands.lean ====
section
/-! DEFINITION. How bytes sit on the ports and how a command's operands are put together
(20_memory.md R61 to R66; 30_encoding.md R82; 44_block_driver.md R170). -/

namespace Sys2Proof.Machine

/-- `bytes_of(v)[k] = v[127-8*k : 120-8*k]`: byte 0 is the most significant (20_memory.md R61). Read as
a matrix, this is also the row-major block load of R62. -/
def bytesOf (v : BitVec 128) : Block := Block.ofBytes fun k => v.extractLsb' (120 - 8 * k.val) 8

/-- The 32-bit value of a word: byte `j` in bits `[31-8*j : 24-8*j]` (20_memory.md R65). -/
def wordBits (w : Word) : BitVec 32 := w.b0 ++ w.b1 ++ w.b2 ++ w.b3

/-- `word_of(B) = {B[0], B[1], ..., B[15]}` (20_memory.md R61), the read-back of R63. -/
def wordOf (B : Block) : BitVec 128 :=
  wordBits B.r0 ++ wordBits B.r1 ++ wordBits B.r2 ++ wordBits B.r3

/-- `p = 16 - len`, the pad count, 1 to 16 (30_encoding.md R82). -/
def padCount (len : BitVec 4) : Nat := 16 - len.toNat

/-- `pad(D, len)`: byte `k` is `D[k]` for `k < len` and `p` for `k ≥ len` (44_block_driver.md R170). -/
def pad (D : Block) (len : BitVec 4) : Block :=
  Block.ofBytes fun k => if k.val < len.toNat then D.byte k else BitVec.ofNat 8 (padCount len)

/-- Elementwise XOR of two words (42_key_schedule.md R122). -/
def xorWord (a b : Word) : Word := Word.ofFn fun j => a.get j ^^^ b.get j

/-- Bytewise XOR of two matrices (43_round_pipeline.md R143). -/
def xorBlock (X Y : Block) : Block := Block.ofFn fun r c => X.get r c ^^^ Y.get r c

/-- The block whose byte `k` is entry `k` of a list, and 0x00 where the list is shorter
(30_encoding.md R87: "chunk bytes at 0..len-1, 0x00 elsewhere"). -/
def blockOfList (bytes : List Byte) : Block := Block.ofBytes fun k => bytes.getD k.val 0

end Sys2Proof.Machine
end

