-- ==== Sys2Proof/Machine/KeySchedule.lean ====
section
/-! DEFINITION. The key scheduler as functions of words and of the key store: the recurrence of
42_key_schedule.md R122 to R125, and the complete expansion of a key (R126). -/

namespace Sys2Proof.Machine

/-- `RotWord(w) = [w[1], w[2], w[3], w[0]]` (42_key_schedule.md R123). -/
def rotWord (w : Word) : Word := ⟨w.b1, w.b2, w.b3, w.b0⟩

/-- `SubWord`: the S-box on each of the four bytes (42_key_schedule.md R124). -/
def subWord (w : Word) : Word := Word.ofFn fun j => sbox (w.get j)

/-- The round constant of word `i`, `RCON[i/4 - 1]` (42_key_schedule.md R125). -/
def roundConstant (i : Fin 44) : Byte := rcon ⟨i.val / 4 - 1, by omega⟩

/-- XOR of a byte into byte 0 of a word, the others unchanged (42_key_schedule.md R122, "XOR only its
first byte"). -/
def xorFirst (w : Word) (c : Byte) : Word := ⟨w.b0 ^^^ c, w.b1, w.b2, w.b3⟩

/-- `next_word(i, prev, back4)` (42_key_schedule.md R122): the "new round" transform when `i` is a
multiple of 4, else the "next round" transform. -/
def nextWord (i : Fin 44) (prev back4 : Word) : Word :=
  if i.val % 4 = 0 then xorWord (xorFirst (subWord (rotWord prev)) (roundConstant i)) back4
  else xorWord prev back4

/-- Writing the key split `W[i] = [K[4i], …, K[4i+3]]` into words 0 to 3, the rest unchanged
(20_memory.md R64; 42_key_schedule.md R120). -/
def storeKey (K : Block) (W : KeyStore) : KeyStore :=
  (((W.set 0 K.r0).set 1 K.r1).set 2 K.r2).set 3 K.r3

/-- `W[i] <- next_word(i, W[i-1], W[i-4])` (42_key_schedule.md R121). -/
def extendStore (W : KeyStore) (i : Nat) (h : 4 ≤ i ∧ i < 44) : KeyStore :=
  W.set i (nextWord ⟨i, h.2⟩ (W[i - 1]'(by omega)) (W[i - 4]'(by omega))) h.2

/-- The key store after `n` KEYEXP edges of a LOAD_KEY that began with an all-zero store. -/
def expandUpTo (K : Block) : Nat → KeyStore
  | 0 => storeKey K (Vector.replicate 44 Word.zero)
  | n + 1 =>
    let W := expandUpTo K n
    if h : 4 ≤ n + 4 ∧ n + 4 < 44 then extendStore W (n + 4) h else W

/-- `expand(K)`: all 44 words (42_key_schedule.md R126). -/
def expand (K : Block) : KeyStore := expandUpTo K 40

/-- Words 4 to `m - 1` of a store follow the recurrence of R122 from the words before them. -/
def FollowsRecurrence (W : KeyStore) (m : Nat) : Prop :=
  ∀ i (h : 4 ≤ i ∧ i < 44), i < m →
    W[i]'h.2 = nextWord ⟨i, h.2⟩ (W[i - 1]'(by omega)) (W[i - 4]'(by omega))

/-- Words 0 to 3 of a store are the key's four rows (20_memory.md R64). -/
def HoldsKey (K : Block) (W : KeyStore) : Prop :=
  W[0] = K.r0 ∧ W[1] = K.r1 ∧ W[2] = K.r2 ∧ W[3] = K.r3

/-- The store is the complete expansion of `K` as 42_key_schedule.md R126 describes it: the key split,
and every later word by the recurrence. -/
def IsExpansion (K : Block) (W : KeyStore) : Prop := HoldsKey K W ∧ FollowsRecurrence W 44

end Sys2Proof.Machine
end

