-- ==== Sys2Proof/Machine/Rounds.lean ====
section
/-! DEFINITION. The four round transforms, the two kinds of round and the block function
(43_round_pipeline.md R140 to R145, R149), as functions of 16 bytes and the key store. -/

namespace Sys2Proof.Machine

/-- SubBytes (43_round_pipeline.md R140). -/
def subBytes (X : Block) : Block := Block.ofFn fun r c => sbox (X.get r c)

/-- ShiftRows: column `c` moves up by `c` rows (43_round_pipeline.md R141). Addition of row numbers
is modulo 4. -/
def shiftRows (X : Block) : Block := Block.ofFn fun r c => X.get (r + c) c

/-- MixColumns on the four rows, wholly from the pre-mix state (43_round_pipeline.md R142). -/
def mixColumns (X : Block) : Block := Block.ofFn fun r j =>
  gmul (X.get r 0) (mixMatrix.get j 0) ^^^ gmul (X.get r 1) (mixMatrix.get j 1) ^^^
    gmul (X.get r 2) (mixMatrix.get j 2) ^^^ gmul (X.get r 3) (mixMatrix.get j 3)

/-- Round key `n`: `RK(n)[r][c] = W[4*n + r][c]` (10_state.md R24). -/
def roundKey (W : KeyStore) (n : Fin 11) : Block :=
  ⟨W[4 * n.val]'(by omega), W[4 * n.val + 1]'(by omega), W[4 * n.val + 2]'(by omega),
    W[4 * n.val + 3]'(by omega)⟩

/-- AddRoundKey (43_round_pipeline.md R143). -/
def addRoundKey (W : KeyStore) (X : Block) (n : Fin 11) : Block := xorBlock X (roundKey W n)

/-- A full round, `Round(X, n)` (43_round_pipeline.md R144). -/
def fullRound (W : KeyStore) (X : Block) (n : Fin 11) : Block :=
  addRoundKey W (mixColumns (shiftRows (subBytes X))) n

/-- `FinalRound(X)`, round 10, which has no MixColumns (43_round_pipeline.md R145). -/
def finalRound (W : KeyStore) (X : Block) : Block :=
  addRoundKey W (shiftRows (subBytes X)) 10

/-- The ciphertext of a block under the round keys a store holds (43_round_pipeline.md R149). -/
def encryptWith (W : KeyStore) (P : Block) : Block :=
  let rounds : List (Fin 11) := [1, 2, 3, 4, 5, 6, 7, 8, 9]
  finalRound W (rounds.foldl (fullRound W) (addRoundKey W P 0))

/-- `E(K, P)` (43_round_pipeline.md R149): AES-128 encryption (R151). -/
def blockCipher (K P : Block) : Block := encryptWith (expand K) P

end Sys2Proof.Machine
end

