-- ==== Sys2Proof/Machine/Ops.lean ====
section
/-! DEFINITION. The operations the commands and the clock edges share: raising an error, starting and
completing a block, reset, the KEYEXP and ENC edges, and the output ports. -/

namespace Sys2Proof.Machine

/-- `raise Error(code)`: `err <- 1`, `err_code <- code`, nothing else (60_exceptions.md R194). The
engine has no other way to take an exception and no return from one (R190, R195). -/
def raiseError (code : BitVec 2) (s : State) : State := { s with err := true, errCode := code }

/-- Load a block and start the rounds: `S <- AddRoundKey(P, 0)`, `ctr <- 1`, `phase <- ENC`
(43_round_pipeline.md R146; 44_block_driver.md R171). -/
def startBlock (P : Block) (s : State) : State :=
  { s with S := addRoundKey s.W P 0, ctr := 1, phase := .enc }

/-- The accepting edge of both encrypting commands, after the common clear: NO_KEY without a key
(60_exceptions.md R193), else the block starts. -/
def acceptBlock (P : Block) (s : State) : State :=
  if s.keyValid then startBlock P s else raiseError codeNoKey s

/-- Begin a key expansion: `W[0..3] <- K`, `key_valid <- 0`, `ctr <- 4`, `phase <- KEYEXP`
(42_key_schedule.md R120). -/
def startExpansion (K : Block) (s : State) : State :=
  { s with W := storeKey K s.W, keyValid := false, ctr := 4, phase := .keyexp }

/-- `reset()`: every register takes its reset value (70_reset_and_hazards.md R210). The host's plan
and the record are no registers and stay. -/
def resetRegisters (s : State) : State :=
  { s with
    phase := .idle, ctr := 0, W := Vector.replicate 44 Word.zero, keyValid := false,
    S := Block.zero, dout := Block.zero, outValid := false, err := false, errCode := codeNone }

/-- `complete(C)` (43_round_pipeline.md R148), with `S` already written. -/
def completeBlock (C : Block) (s : State) : State :=
  { s with dout := C, outValid := true, ctr := 0, phase := .idle }

/-- The KEYEXP edge for word `ctr` (42_key_schedule.md R121). -/
def keyexpEdge (s : State) : Host.Outcome State Fault Refusal :=
  if h : 4 ≤ s.ctr.toNat ∧ s.ctr.toNat < 44 then
    let s' := { s with W := extendStore s.W s.ctr.toNat h }
    if s.ctr.toNat = 43 then .next { s' with keyValid := true, ctr := 0, phase := .idle }
    else .next { s' with ctr := s.ctr + 1 }
  else .fault .unreachableSequencer

/-- The ENC edge for round `ctr` (43_round_pipeline.md R147). Round 10 is the final round, and
completes. -/
def encEdge (s : State) : Host.Outcome State Fault Refusal :=
  if h : 1 ≤ s.ctr.toNat ∧ s.ctr.toNat ≤ 10 then
    if s.ctr.toNat < 10 then
      .next { s with S := fullRound s.W s.S ⟨s.ctr.toNat, by omega⟩, ctr := s.ctr + 1 }
    else
      let C := finalRound s.W s.S
      .next (completeBlock C { s with S := C })
  else .fault .unreachableSequencer

/-- The debug read port: `W[rk_idx]` for `rk_idx` up to 43, else 0x00000000 (60_exceptions.md R200). -/
def rkWord (W : KeyStore) (rkIdx : BitVec 6) : BitVec 32 :=
  if h : rkIdx.toNat ≤ 43 then wordBits (W[rkIdx.toNat]'(by omega)) else 0

/-- The output ports (10_state.md R20). -/
structure Outputs where
  cmdReady : Bool
  status : BitVec 8
  dout : BitVec 128
  rkWord : BitVec 32
  deriving DecidableEq, Repr

/-- The output ports while the registers are those of `s` and the inputs stand at `p`: functions of
the registers, of `rst` and of `rk_idx` (10_state.md R20). Reading them changes nothing (20_memory.md
R68). -/
def State.outputs (s : State) (p : Pins) : Outputs where
  cmdReady := s.cmdReady p.rst
  status := s.status p.rst
  dout := wordOf s.dout
  rkWord := Sys2Proof.Machine.rkWord s.W p.rkIdx

end Sys2Proof.Machine
end

