-- ==== Sys2Proof/Machine/Encryption.lean ====
section
/-! DEFINITION. ENCRYPT and ENCRYPT_PAD, their accepting edges (43_round_pipeline.md R146;
44_block_driver.md R171). The 10 ENC edges that follow are `encEdge` of Machine/Ops.lean. -/

namespace Sys2Proof.Machine

/-- ENCRYPT (43_round_pipeline.md R146): the common clear, then the block of `data_in`, or NO_KEY.
`len` and `key_in` are ignored (30_encoding.md R84). -/
def execEncrypt (_len : BitVec 4) (_keyIn dataIn : BitVec 128) (s : State) :
    Host.Outcome State Fault Refusal :=
  .next (acceptBlock (bytesOf dataIn) (clearOutcome s))

/-- ENCRYPT_PAD (44_block_driver.md R171): as ENCRYPT, on the padded chunk. `key_in` and the bytes
`len` to 15 of `data_in` are ignored (30_encoding.md R84). -/
def execEncryptPad (len : BitVec 4) (_keyIn dataIn : BitVec 128) (s : State) :
    Host.Outcome State Fault Refusal :=
  .next (acceptBlock (pad (bytesOf dataIn) len) (clearOutcome s))

end Sys2Proof.Machine
end

