-- ==== Sys2Proof/Machine/KeyLoad.lean ====
section
/-! DEFINITION. LOAD_KEY, its accepting edge (42_key_schedule.md R120). The 40 KEYEXP edges that follow
are `keyexpEdge` of Machine/Ops.lean. -/

namespace Sys2Proof.Machine

/-- LOAD_KEY (42_key_schedule.md R120): the common clear, then the key split into words 0 to 3. `len`
and `data_in` are ignored (30_encoding.md R84). -/
def execLoadKey (_len : BitVec 4) (keyIn _dataIn : BitVec 128) (s : State) :
    Host.Outcome State Fault Refusal :=
  .next (startExpansion (bytesOf keyIn) (clearOutcome s))

end Sys2Proof.Machine
end

