-- ==== Sys2Proof/Machine/Reserved.lean ====
section
/-! DEFINITION. RSVD, the reserved command (60_exceptions.md R192). -/

namespace Sys2Proof.Machine

/-- RSVD (60_exceptions.md R192): the common clear, then ILLEGAL_OP. Every operand is ignored. -/
def execRsvd (_len : BitVec 4) (_keyIn _dataIn : BitVec 128) (s : State) :
    Host.Outcome State Fault Refusal :=
  .next (raiseError codeIllegalOp (clearOutcome s))

end Sys2Proof.Machine
end

