-- ==== Sys2Proof/Machine/Dispatch.lean ====
section
/-! DEFINITION. The accepting edge of each command: one arm per constructor of `Instr`
(10_state.md R38). -/

namespace Sys2Proof.Machine

/-- What the accepting edge of a command does to the engine (10_state.md R38, the IDLE branch). The
handshake that lets it be accepted (R32) stands in Machine/Edge.lean. -/
def exec (i : Instr) (s : State) : Host.Outcome State Fault Refusal :=
  match i with
  | .loadKey len keyIn dataIn => Sys2Proof.Machine.execLoadKey len keyIn dataIn s
  | .encrypt len keyIn dataIn => Sys2Proof.Machine.execEncrypt len keyIn dataIn s
  | .encryptPad len keyIn dataIn => Sys2Proof.Machine.execEncryptPad len keyIn dataIn s
  | .rsvd len keyIn dataIn => Sys2Proof.Machine.execRsvd len keyIn dataIn s

end Sys2Proof.Machine
end

