-- ==== Sys2Proof/Machine/HostSide.lean ====
section
/-! DEFINITION. The host: which values its plan puts on the ports at the next edge, when a command is
accepted, and what the record of a run keeps (10_state.md R32; 30_encoding.md R88;
70_reset_and_hazards.md R216, R217, R222). -/

namespace Sys2Proof.Machine

/-- Ports with nothing offered: `rst` = 0 and `cmd_valid` = 0. -/
def quietPins : Pins := ⟨false, false, 0, 0, 0, 0⟩

/-- Ports with a command offered. -/
def offeringPins (c : Command) : Pins := ⟨false, true, c.cmd, c.keyIn, c.dataIn, 0⟩

/-- Ports with reset asserted. -/
def resetPins : Pins := ⟨true, false, 0, 0, 0, 0⟩

/-- The port values a plan gives the next edge, and the plan after that edge. `ready` is `cmd_ready`
before the edge: an offered command is accepted exactly then, so it is taken off the plan exactly then
(70_reset_and_hazards.md R216), and a wait is over exactly then (30_encoding.md R88). Past the plan's
end the host offers nothing. -/
def present (ready : Bool) : List HostAction → Pins × List HostAction
  | [] => (quietPins, [])
  | .drive p :: rest => (p, rest)
  | .offer c :: rest => (offeringPins c, if ready then rest else .offer c :: rest)
  | .waitReady :: rest => if ready then present ready rest else (quietPins, .waitReady :: rest)
  | .idle 0 :: rest => present ready rest
  | .idle (n + 1) :: rest => (quietPins, .idle n :: rest)
  | .reset :: rest => (resetPins, rest)

/-- The action offers a command, at an edge at which the engine may or may not accept it: it drives
`cmd_valid` = 1 (70_reset_and_hazards.md R222). -/
def offersCommand : HostAction → Bool
  | .drive p => p.cmdValid
  | .offer _ => true
  | .waitReady => false
  | .idle _ => false
  | .reset => false

/-- The values on the input ports just before the next edge (10_state.md R38). -/
def State.pins (s : State) : Pins := (present (decide (s.phase = .idle)) s.script).1

/-- The host's plan after the next edge. -/
def State.planAfter (s : State) : List HostAction :=
  (present (decide (s.phase = .idle)) s.script).2

/-- The next edge accepts a command: `rst` = 0, `cmd_valid` = 1 and `phase` = IDLE (10_state.md R32). -/
def State.accepts (s : State) : Bool :=
  !s.pins.rst && s.pins.cmdValid && decide (s.phase = .idle)

/-- The next edge completes a block: it leaves ENC for IDLE with `rst` = 0 (43_round_pipeline.md
R148). -/
def completes (s t : State) : Bool :=
  !s.pins.rst && decide (s.phase = .enc) && decide (t.phase = .idle)

/-- The host's plan and the record after an edge that took the registers from `s` to `t`: `status` is
sampled after an accepting edge, `dout` after a completing one, and a rejected accepting edge is kept
for good (70_reset_and_hazards.md R217, R222). A reset edge begins a new run and so a new record. -/
def record (s t : State) : State :=
  { t with
    script := s.planAfter
    statusLog := if s.pins.rst then [] else if s.accepts then s.statusLog ++ [t.status false] else s.statusLog
    doutLog := if s.pins.rst then [] else if completes s t then s.doutLog ++ [t.dout] else s.doutLog
    rejectLog :=
      if s.pins.rst then []
      else if s.accepts && t.err then s.rejectLog ++ [⟨s.pins.cmd, t.errCode⟩] else s.rejectLog }

end Sys2Proof.Machine
end

