-- ==== Sys2Proof/Machine/Edge.lean ====
section
/-! DEFINITION. What one rising edge of `clk` does to the registers (10_state.md R38), in the order of
priority of 60_exceptions.md R196. -/

namespace Sys2Proof.Machine

/-- One rising edge (10_state.md R38): reset beats everything; in IDLE an offered command is decoded
and takes its accepting edge, and nothing happens when none is offered; in KEYEXP and ENC the edge is
the phase's own, whatever is offered. -/
def edge (s : State) : Host.Outcome State Fault Refusal :=
  if s.pins.rst then .next (resetRegisters s)
  else
    match s.phase with
    | .idle => if s.pins.cmdValid then exec (decode s.pins.command) s else .next s
    | .keyexp => keyexpEdge s
    | .enc => encEdge s

/-- The step's outcome from the edge's: after a next state the host's plan moves on and the record
is kept. -/
def afterEdge (s : State) : Host.Outcome State Fault Refusal → Host.Outcome State Fault Refusal
  | .next t => .next (record s t)
  | .fault f => .fault f
  | .refused r => .refused r

/-- The state in which the next edge accepts exactly this command: the engine ready, and the command
first on the host's plan. -/
def offerNow (c : Command) (s : State) : State :=
  { s with phase := .idle, ctr := 0, script := .offer c :: s.script }

end Sys2Proof.Machine
end

