-- ==== Sys2Proof/Machine/Step.lean ====
section
/-! DEFINITION. One step of the machine: one rising edge of `clk` and the host's move around it. -/

namespace Sys2Proof.Machine

/-- One rising edge of `clk`. -/
def step (s : State) : Host.Outcome State Fault Refusal := afterEdge s (edge s)

/-- `s` with a table word offered at the next edge: the engine has no instruction memory
(20_memory.md R73), so a command is placed where the step takes its next one, on the host's plan, with
the engine in IDLE, where it accepts one (10_state.md R32). A number that is no command word places
nothing. -/
def State.withFetchWord (s : State) (_nbits w : Nat) : State :=
  match commandOfTableWord w with
  | .ok c => offerNow c s
  | .error _ => s

end Sys2Proof.Machine
end

