-- ==== Sys2Proof/Machine/Assembler.lean ====
section
/-! DEFINITION. The assembly language: what each line makes the host do (30_encoding.md R87, R88;
44_block_driver.md R173), and how a line is written (R87). -/

namespace Sys2Proof.Machine

/-- `ENC <block>`: the command word 0x01, `key_in` 0 (30_encoding.md R87). -/
def encAction (block : List Byte) : HostAction :=
  .offer (encode (.encrypt 0 0 (wordOf (blockOfList block))))

/-- `ENCPAD <len>, <chunk>`: the command word `(len << 2) | 0x02`, `key_in` 0 (30_encoding.md R87). -/
def encPadAction (len : Nat) (chunk : List Byte) : HostAction :=
  .offer (encode (.encryptPad (BitVec.ofNat 4 len) 0 (wordOf (blockOfList chunk))))

/-- Chunk `b` of a byte string: bytes `16*b` to `16*b + 15` (44_block_driver.md R173). -/
def streamChunk (bytes : List Byte) (b : Nat) : List Byte := (bytes.drop (16 * b)).take 16

/-- The last `L mod 16` bytes of a byte string of length `L` (44_block_driver.md R173). -/
def streamTail (bytes : List Byte) : List Byte := bytes.drop (16 * (bytes.length / 16))

/-- `ENCSTREAM`: an ENC for each full chunk in order, then one ENCLAST of what remains
(30_encoding.md R88; 44_block_driver.md R173). -/
def streamActions (bytes : List Byte) : List HostAction :=
  (List.range (bytes.length / 16)).map (fun b => encAction (streamChunk bytes b)) ++
    [encPadAction (bytes.length % 16) (streamTail bytes)]

/-- The blocks a stream is encrypted as: its full chunks, then the padded last one
(44_block_driver.md R173, R170). -/
def streamBlocks (bytes : List Byte) : List Block :=
  (List.range (bytes.length / 16)).map (fun b => blockOfList (streamChunk bytes b)) ++
    [pad (blockOfList (streamTail bytes)) (BitVec.ofNat 4 (bytes.length % 16))]

/-- What a line makes the host do. The WAITREADY that a command line implies (30_encoding.md R88) is
part of `HostAction.offer`. An IDLE line counts its edges from the completion of the line before it
(DEDUCED from 95_test_vectors.md §3.5, log entry 12); a RESET line does not wait (log entry 13). -/
def expandLine : AsmLine → List HostAction
  | .loadKey key => [.offer (encode (.loadKey 0 (wordOf (blockOfList key)) 0))]
  | .enc block => [encAction block]
  | .encPad len chunk => [encPadAction len chunk]
  | .rsvd len => [.offer (encode (.rsvd (BitVec.ofNat 4 len) 0 0))]
  | .waitReady => [.waitReady]
  | .idle n => [.waitReady, .idle n]
  | .reset => [.reset]
  | .padBlock => [encPadAction 0 []]
  | .encLast chunk => [encPadAction chunk.length chunk]
  | .encStream bytes => streamActions bytes

/-- The host's plan for a program: its lines' actions in order, if every line is well formed. -/
def assemble (lines : List AsmLine) : Option (List HostAction) :=
  if lines.all AsmLine.wellFormed then some (lines.flatMap expandLine) else none

/-- The value of a hex digit; "case is not significant" (30_encoding.md R87). -/
def hexDigit (c : Char) : Option Nat :=
  let n := c.toNat
  if 48 ≤ n ∧ n ≤ 57 then some (n - 48)
  else if 97 ≤ n ∧ n ≤ 102 then some (n - 87)
  else if 65 ≤ n ∧ n ≤ 70 then some (n - 55)
  else none

/-- The bytes of a hex string, two digits a byte, byte 0 first (30_encoding.md R87). -/
def hexBytes : List Char → Option (List Byte)
  | [] => some []
  | [_] => none
  | hi :: lo :: rest =>
    match hexDigit hi, hexDigit lo, hexBytes rest with
    | some h, some l, some bytes => some (BitVec.ofNat 8 (16 * h + l) :: bytes)
    | _, _, _ => none

/-- The digits of a decimal number, onto the value read so far. -/
def decimalFrom : Nat → List Char → Option Nat
  | acc, [] => some acc
  | acc, c :: rest =>
    if 48 ≤ c.toNat ∧ c.toNat ≤ 57 then decimalFrom (10 * acc + (c.toNat - 48)) rest else none

/-- A decimal integer of at least one digit (30_encoding.md R87). -/
def decimal (cs : List Char) : Option Nat := if cs.isEmpty then none else decimalFrom 0 cs

/-- A mnemonic and its operand text, apart at the first space; further spaces are skipped. -/
def splitLine (line : List Char) : List Char × List Char :=
  (line.takeWhile (· ≠ ' '), (line.dropWhile (· ≠ ' ')).dropWhile (· = ' '))

/-- The operands of `ENCPAD`: a length, a comma, and a chunk that may be empty (30_encoding.md R87). -/
def encPadOperands (text : List Char) : Option AsmLine :=
  match text.dropWhile (· ≠ ',') with
  | [] => none
  | _ :: rest =>
    match decimal (text.takeWhile (· ≠ ',')), hexBytes (rest.dropWhile (· = ' ')) with
    | some len, some chunk => some (.encPad len chunk)
    | _, _ => none

/-- One written line (30_encoding.md R87, R88). -/
def parseLine (line : List Char) : Option AsmLine :=
  let (name, text) := splitLine line
  if name = "LOADKEY".toList then (hexBytes text).map .loadKey
  else if name = "ENC".toList then (hexBytes text).map .enc
  else if name = "ENCPAD".toList then encPadOperands text
  else if name = "RSVD".toList then (decimal text).map .rsvd
  else if name = "IDLE".toList then (decimal text).map .idle
  else if name = "ENCLAST".toList then (hexBytes text).map .encLast
  else if name = "ENCSTREAM".toList then (hexBytes text).map .encStream
  else if name = "WAITREADY".toList then (if text.isEmpty then some .waitReady else none)
  else if name = "RESET".toList then (if text.isEmpty then some .reset else none)
  else if name = "PADBLOCK".toList then (if text.isEmpty then some .padBlock else none)
  else none

/-- A program as written, line by line, to the host's plan. -/
def assembleText (lines : List (List Char)) : Option (List HostAction) :=
  match lines.mapM parseLine with
  | some parsed => assemble parsed
  | none => none

end Sys2Proof.Machine
end

