-- ==== Sys2Proof/Machine/Textbook.lean ====
section
/-! DEFINITION. The usual column-major presentation of AES, as 00_scope.md R12 and
43_round_pipeline.md R151 give it. The engine does not use it: claims compare the engine's row-major
functions with it. -/

namespace Sys2Proof.Machine

/-- A state in the usual presentation, `s row col`. -/
abbrev TextbookState := Fin 4 → Fin 4 → Byte

/-- `s[row][col] = in[row + 4*col]` (00_scope.md R12). -/
def textbookState (B : Block) : TextbookState := fun row col => B.byte ⟨row.val + 4 * col.val, by omega⟩

/-- The S-box on every byte. -/
def textbookSubBytes (s : TextbookState) : TextbookState := fun row col => sbox (s row col)

/-- `s'[row][col] = s[row][(col + row) mod 4]` (43_round_pipeline.md R151). -/
def textbookShiftRows (s : TextbookState) : TextbookState := fun row col => s row (col + row)

/-- MixColumns applied to each column `s[0..3][col]` (43_round_pipeline.md R151), by the field
product. -/
def textbookMixColumns (s : TextbookState) : TextbookState := fun row col =>
  match row with
  | 0 => gfMul (s 0 col) 2 ^^^ gfMul (s 1 col) 3 ^^^ s 2 col ^^^ s 3 col
  | 1 => s 0 col ^^^ gfMul (s 1 col) 2 ^^^ gfMul (s 2 col) 3 ^^^ s 3 col
  | 2 => s 0 col ^^^ s 1 col ^^^ gfMul (s 2 col) 2 ^^^ gfMul (s 3 col) 3
  | 3 => gfMul (s 0 col) 3 ^^^ s 1 col ^^^ s 2 col ^^^ gfMul (s 3 col) 2

/-- Word `w[4n + col]` XORed into column `col` (43_round_pipeline.md R151). -/
def textbookAddRoundKey (W : KeyStore) (n : Fin 11) (s : TextbookState) : TextbookState :=
  fun row col => s row col ^^^ (W[4 * n.val + col.val]'(by omega)).get row

/-- A full round of the usual presentation. -/
def textbookRound (W : KeyStore) (s : TextbookState) (n : Fin 11) : TextbookState :=
  textbookAddRoundKey W n (textbookMixColumns (textbookShiftRows (textbookSubBytes s)))

/-- The ten rounds of the usual presentation. -/
def textbookCipher (W : KeyStore) (s : TextbookState) : TextbookState :=
  let rounds : List (Fin 11) := [1, 2, 3, 4, 5, 6, 7, 8, 9]
  textbookAddRoundKey W 10 (textbookShiftRows (textbookSubBytes
    (rounds.foldl (textbookRound W) (textbookAddRoundKey W 0 s))))

end Sys2Proof.Machine
end

