-- ==== Sys2Proof/Safety.lean ====
section
/-! DEFINITION. The terms claims are stated in: the invariant of every reachable state, plans without
a reset, what two states with the same control share, runs, and the end of a run. -/

namespace Sys2Proof.Machine

/-- `ctr` is one the phase can have: 0 in IDLE, 4 to 43 in KEYEXP, 1 to 10 in ENC (10_state.md R27). -/
def State.SequencerLegal (s : State) : Prop :=
  match s.phase with
  | .idle => s.ctr = 0
  | .keyexp => 4 ≤ s.ctr.toNat ∧ s.ctr.toNat ≤ 43
  | .enc => 1 ≤ s.ctr.toNat ∧ s.ctr.toNat ≤ 10

/-- The transition table of 10_state.md R33: the pair (`phase`, `ctr`) after the next edge. -/
def nextSequencer (s : State) : Phase × BitVec 6 :=
  if s.pins.rst then (.idle, 0)
  else
    match s.phase with
    | .idle =>
      if s.pins.cmdValid then
        match decode s.pins.command with
        | .loadKey _ _ _ => (.keyexp, 4)
        | .encrypt _ _ _ => if s.keyValid then (.enc, 1) else (.idle, 0)
        | .encryptPad _ _ _ => if s.keyValid then (.enc, 1) else (.idle, 0)
        | .rsvd _ _ _ => (.idle, 0)
      else (.idle, 0)
    | .keyexp => if s.ctr = 43 then (.idle, 0) else (.keyexp, s.ctr + 1)
    | .enc => if s.ctr = 10 then (.idle, 0) else (.enc, s.ctr + 1)

/-- What holds in every state a run can be in. -/
structure State.Inv (s : State) : Prop where
  /-- (`phase`, `ctr`) is one of the pairs of R27. -/
  sequencer : s.SequencerLegal
  /-- `err` and `err_code` agree, and code 3 is never produced (R30, R191). -/
  errAgrees : (s.err = false ∧ s.errCode = codeNone) ∨
    (s.err = true ∧ (s.errCode = codeIllegalOp ∨ s.errCode = codeNoKey))
  /-- While a key expands there is no valid key, no valid output and no error (R25, R29, R30). -/
  expanding : s.phase = .keyexp → s.keyValid = false ∧ s.outValid = false ∧ s.err = false
  /-- A block is in flight only under a valid key, with no valid output and no error
  (20_memory.md R73). -/
  encrypting : s.phase = .enc → s.keyValid = true ∧ s.outValid = false ∧ s.err = false
  /-- A valid key means a complete expansion: every word from 4 on follows the recurrence (R25). -/
  keyed : s.keyValid = true → FollowsRecurrence s.W 44
  /-- During an expansion the words below `ctr` are the new ones (R35, R218). -/
  partlyKeyed : s.phase = .keyexp → FollowsRecurrence s.W s.ctr.toNat
  /-- A valid output comes from a completed block: there is a key, no error, and `dout` is the final
  state (R28, R148). -/
  output : s.outValid = true →
    s.phase = .idle ∧ s.keyValid = true ∧ s.err = false ∧ s.dout = s.S
  /-- The record of rejections holds only ILLEGAL_OP and NO_KEY (R191). -/
  rejections : ∀ r ∈ s.rejectLog, r.code = codeIllegalOp ∨ r.code = codeNoKey

/-- The action never asserts `rst`. -/
def assertsNoReset : HostAction → Bool
  | .drive p => !p.rst
  | .offer _ => true
  | .waitReady => true
  | .idle _ => true
  | .reset => false

/-- No edge of the plan asserts `rst`. -/
def NoReset (plan : List HostAction) : Prop := ∀ a ∈ plan, assertsNoReset a = true

/-- The action with its key and data operands wiped: what is left decides control. -/
def wipeOperands : HostAction → HostAction
  | .drive p => .drive { p with keyIn := 0, dataIn := 0 }
  | .offer c => .offer { c with keyIn := 0, dataIn := 0 }
  | .waitReady => .waitReady
  | .idle n => .idle n
  | .reset => .reset

/-- The two states agree on everything but key and data values: the sequencer, the flags, and the
host's plan up to its operands (43_round_pipeline.md R150). -/
structure SameControl (s t : State) : Prop where
  phase : s.phase = t.phase
  ctr : s.ctr = t.ctr
  keyValid : s.keyValid = t.keyValid
  outValid : s.outValid = t.outValid
  err : s.err = t.err
  errCode : s.errCode = t.errCode
  script : s.script.map wipeOperands = t.script.map wipeOperands

/-- `k` rising edges. -/
def runFor (k : Nat) (s : State) : Host.Outcome State Fault Refusal :=
  Host.Core.run Sys2Proof.core k s

/-- The run is over: every command accepted, `phase` = IDLE, and the host offers no further command
(70_reset_and_hazards.md R222). What is left of the host's plan may wait, idle, drive quiet ports or reset.
Two corners of this reading are DESIGN CHOICEs (log entry 16). -/
def State.RunOver (s : State) : Prop := s.phase = .idle ∧ s.script.any offersCommand = false

/-- The run from `s` ends after `n` edges, in `t`: "the first edge after which" it is over
(70_reset_and_hazards.md R222). The observation at the end of the run is `t.observation`. An edge of the
plan after the end, a reset edge too, is no edge of the run. -/
structure RunEndsAt (s : State) (n : Nat) (t : State) : Prop where
  reached : runFor n s = .next t
  isOver : t.RunOver
  first : ∀ m, m < n → ∀ u, runFor m s = .next u → ¬u.RunOver

/-- The observation at the end of a run: the registers R222 names, and the sampled sequences. -/
structure Observation where
  W : KeyStore
  keyValid : Bool
  outValid : Bool
  err : Bool
  errCode : BitVec 2
  dout : Block
  douts : List Block
  statuses : List (BitVec 8)
  rejections : List Rejection
  deriving DecidableEq, Repr

/-- What is observed of a state (70_reset_and_hazards.md R222). -/
def State.observation (s : State) : Observation :=
  ⟨s.W, s.keyValid, s.outValid, s.err, s.errCode, s.dout, s.doutLog, s.statusLog, s.rejectLog⟩

/-- A command is one of the four rows whose acceptance starts work: LOAD_KEY always, ENCRYPT and
ENCRYPT_PAD with a valid key. The others are rejected with the code given (60_exceptions.md R196). -/
def rejectionCode (i : Instr) (keyValid : Bool) : BitVec 2 :=
  match i with
  | .loadKey _ _ _ => codeNone
  | .encrypt _ _ _ => if keyValid then codeNone else codeNoKey
  | .encryptPad _ _ _ => if keyValid then codeNone else codeNoKey
  | .rsvd _ _ _ => codeIllegalOp

end Sys2Proof.Machine
end

