-- ==== Sys2Proof/Certificates/Slice0/Obligations.lean ====
section
/-! DEFINITION. What is claimed of the model. Each statement's docstring names the rule of the spec it
says, or says that it is the model's own. -/

open Sys2Proof Sys2Proof.Machine

/-! ### Encoding -/

/-- 30_encoding.md R81, R83: `op` is `cmd[1:0]` and `len` is `cmd[5:2]`, as the pattern `LLLLOO` says; the
map from `op` to the command; and the rows of the opcode table "together cover all 64 command words exactly
once", the row that covers a command word being that of the command it decodes to. -/
def Obligations.DecodeFollowsTheOpcodeMap : Prop :=
  (∀ (len : BitVec 4) (op : BitVec 2), opField (len ++ op) = op ∧ lenField (len ++ op) = len) ∧
  (∀ (len : BitVec 4) (keyIn dataIn : BitVec 128),
    decode ⟨len ++ 0b00#2, keyIn, dataIn⟩ = .loadKey len keyIn dataIn ∧
    decode ⟨len ++ 0b01#2, keyIn, dataIn⟩ = .encrypt len keyIn dataIn ∧
    decode ⟨len ++ 0b10#2, keyIn, dataIn⟩ = .encryptPad len keyIn dataIn ∧
    decode ⟨len ++ 0b11#2, keyIn, dataIn⟩ = .rsvd len keyIn dataIn) ∧
  ∀ c : Command, opcodeTable.filter (fun r => r.covers c.cmd) = [(decode c).row]

/-- Decode and encode are inverse to each other: no bit of a command is dropped (30_encoding.md R80,
R81). -/
def Obligations.DecodeEncodeRoundTrip : Prop :=
  (∀ i : Instr, decode (encode i) = i) ∧ ∀ c : Command, encode (decode c) = c

/-- Words written out from the encodings of 30_encoding.md R87 and 95_test_vectors.md §2.7 decode to
what they stand for, and a number above 6 bits is refused. -/
def Obligations.SampleWordsDecode : Prop :=
  decodeTableWord 8 0b000000 = some (.loadKey 0 0 0) ∧
  decodeTableWord 8 0b111100 = some (.loadKey 15 0 0) ∧
  decodeTableWord 8 0b000001 = some (.encrypt 0 0 0) ∧
  decodeTableWord 8 0b111101 = some (.encrypt 15 0 0) ∧
  decodeTableWord 8 0b001110 = some (.encryptPad 3 0 0) ∧
  decodeTableWord 8 0b111110 = some (.encryptPad 15 0 0) ∧
  decodeTableWord 8 0b010111 = some (.rsvd 5 0 0) ∧
  decodeTableWord 8 0b111111 = some (.rsvd 15 0 0) ∧
  decodeTableWord 8 0b1000000 = none

/-- 30_encoding.md R84: `len` of LOAD_KEY and ENCRYPT, and every operand a command does not use, are
don't-care: the same command with the same result. For ENCRYPT_PAD the bytes `len` to 15 of `data_in` are
among them. -/
def Obligations.IgnoredFieldsAreDontCare : Prop :=
  ∀ (s : State) (len len' : BitVec 4) (k k' d d' : BitVec 128),
    exec (.loadKey len k d) s = exec (.loadKey len' k d') s ∧
    exec (.encrypt len k d) s = exec (.encrypt len' k' d) s ∧
    exec (.rsvd len k d) s = exec (.rsvd len' k' d') s ∧
    ((∀ b : Fin 16, b.val < len.toNat → (bytesOf d).byte b = (bytesOf d').byte b) →
      exec (.encryptPad len k d) s = exec (.encryptPad len k' d') s)

/-! ### Operands and byte order -/

/-- 20_memory.md R61: byte `k` of a 128-bit port is bits `[127-8*k : 120-8*k]`, both ways, and the two
conversions are inverse. -/
def Obligations.PortByteOrder : Prop :=
  (∀ (v : BitVec 128) (k : Fin 16), (bytesOf v).byte k = v.extractLsb' (120 - 8 * k.val) 8) ∧
  (∀ (B : Block) (k : Fin 16), (wordOf B).extractLsb' (120 - 8 * k.val) 8 = B.byte k) ∧
  (∀ v : BitVec 128, wordOf (bytesOf v) = v) ∧ ∀ B : Block, bytesOf (wordOf B) = B

/-- 60_exceptions.md R200, 20_memory.md R65, R66: the debug port gives the four bytes of `W[rk_idx]`,
byte `j` in bits `[31-8*j : 24-8*j]`, and 0 for `rk_idx` 44 to 63; and right after the accepting edge of
LOAD_KEY, at `rk_idx = i`, `i ≤ 3`, it shows `key_in[127-32*i : 96-32*i]`. -/
def Obligations.DebugPortReadsTheKeyStore : Prop :=
  (∀ (s : State) (p : Pins),
    (∀ h : p.rkIdx.toNat ≤ 43, ∀ j : Fin 4,
      (s.outputs p).rkWord.extractLsb' (24 - 8 * j.val) 8 = (s.W[p.rkIdx.toNat]'(by omega)).get j) ∧
    (43 < p.rkIdx.toNat → (s.outputs p).rkWord = 0)) ∧
  ∀ (s : State) (len : BitVec 4) (keyIn dataIn : BitVec 128),
    ∃ t, exec (.loadKey len keyIn dataIn) s = .next t ∧
      ∀ (i : Fin 4) (p : Pins), p.rkIdx.toNat = i.val →
        (t.outputs p).rkWord = keyIn.extractLsb' (96 - 32 * i.val) 32

/-- 44_block_driver.md R170: the padding rule, for every length 0 to 15; between 1 and 16 bytes are
added; the bytes from `len` on never reach the result. -/
def Obligations.PadRule : Prop :=
  (∀ (D : Block) (len : BitVec 4) (k : Fin 16),
    (pad D len).byte k =
      if k.val < len.toNat then D.byte k else BitVec.ofNat 8 (16 - len.toNat)) ∧
  (∀ len : BitVec 4, 1 ≤ padCount len ∧ padCount len ≤ 16) ∧
  (∀ D : Block, pad D 0 = Block.ofBytes fun _ => 0x10) ∧
  (∀ D : Block, (pad D 15).byte 15 = 0x01) ∧
  (∀ (D D' : Block) (len : BitVec 4),
    (∀ k : Fin 16, k.val < len.toNat → D.byte k = D'.byte k) → pad D len = pad D' len) ∧
  (∀ D : Block, D.byte 0 = 0x41 → wordOf (pad D 1) = 0x410f0f0f0f0f0f0f0f0f0f0f0f0f0f0f)

/-! ### Tables and the field -/

/-- 40_tables.md R101: the S-box is the affine map of the inverse, every byte has an inverse in that
sense, and the spot values. -/
def Obligations.SboxIsAffineOfInverse : Prop :=
  (∀ b : Byte, ∃ x, IsInv b x) ∧ (∀ b x : Byte, IsInv b x → sbox b = affine x) ∧
  sbox 0x00 = 0x63 ∧ sbox 0x01 = 0x7c ∧ sbox 0x53 = 0xed ∧ sbox 0xff = 0x16

/-- 40_tables.md R102, R103, R104: the round constants are successive `xtime`s of 1; ANTILOG holds the
powers of 0x03 and 0x01 at 255; LOG of a nonzero byte is the one index below 255 whose ANTILOG it is. -/
def Obligations.RconAndLogTables : Prop :=
  (rcon 0 = 0x01 ∧ ∀ k : Fin 9, rcon k.succ = xtime (rcon k.castSucc)) ∧
  ((∀ k : Fin 255, antilog (BitVec.ofNat 8 k.val) = gfPow 0x03 k.val) ∧ antilog 255 = 0x01) ∧
  ((∀ b : Byte, b ≠ 0 → (log b).toNat ≤ 254 ∧ antilog (log b) = b) ∧
    (∀ k : Fin 255, log (antilog (BitVec.ofNat 8 k.val)) = BitVec.ofNat 8 k.val) ∧
    log 0 = 0x00 ∧ log 1 = 0x00)

/-- 41_gf_multiplier.md R112: the table algorithm gives the field product at every pair of operands. -/
def Obligations.GmulIsTheFieldProduct : Prop := ∀ a b : Byte, gmul a b = gfMul a b

/-- 41_gf_multiplier.md R115: the algebraic laws of `gmul`. -/
def Obligations.GmulAlgebra : Prop :=
  ∀ a b c : Byte,
    (gmul a 0 = 0 ∧ gmul 0 a = 0) ∧ (gmul a 1 = a ∧ gmul 1 a = a) ∧ gmul a b = gmul b a ∧
    gmul (gmul a b) c = gmul a (gmul b c) ∧ gmul a (b ^^^ c) = gmul a b ^^^ gmul a c ∧
    (gmul a b = 0 → a = 0 ∨ b = 0)

/-- 41_gf_multiplier.md R113: `xtime` is multiplication by 2, and the three multipliers of the matrix;
with the worked examples. -/
def Obligations.XtimeAndTheMatrixMultipliers : Prop :=
  (∀ v : Byte, gmul v 0x02 = xtime v ∧ gmul v 0x01 = v ∧ gmul v 0x03 = xtime v ^^^ v) ∧
  (∀ a : Byte, xtime a = if a.getLsbD 7 then (a <<< 1) ^^^ 0x1B else a <<< 1) ∧
  xtime 0x80 = 0x1B ∧ xtime 0xFF = 0xE5 ∧ gmul 0x03 0xFF = 0x1A

/-- 41_gf_multiplier.md R114: the logarithms of nonzero bytes are at most 254, so one conditional
subtraction reduces their sum modulo 255; and both readings of "past 255" give the same byte. -/
def Obligations.LogSumReduction : Prop :=
  (∀ b : Byte, b ≠ 0 → (log b).toNat ≤ 254) ∧
  (∀ r i : Byte, r ≠ 0 → i ≠ 0 →
    logSum r i = ((log r).toNat + (log i).toNat) % 255 ∧ logSum r i ≤ 254) ∧
  antilog 255 = antilog 0

/-! ### The round transforms -/

/-- 43_round_pipeline.md R140: SubBytes bytewise, with no byte unchanged. -/
def Obligations.SubBytesRule : Prop :=
  (∀ (X : Block) (r c : Fin 4), (subBytes X).get r c = sbox (X.get r c)) ∧
  (∀ (X : Block) (r c : Fin 4), (subBytes X).get r c ≠ X.get r c) ∧
  subBytes (bytesOf 0x000102030405060708090a0b0c0d0e0f) = bytesOf 0x637c777bf26b6fc53001672bfed7ab76

/-- 43_round_pipeline.md R141: ShiftRows; column 0 is unchanged, column 2 comes back when shifted
twice, sixteen equal bytes are unchanged. -/
def Obligations.ShiftRowsRule : Prop :=
  (∀ (X : Block) (r c : Fin 4),
    (shiftRows X).get r c = X.get ⟨(r.val + c.val) % 4, by omega⟩ c) ∧
  (∀ (X : Block) (r : Fin 4),
    (shiftRows X).get r 0 = X.get r 0 ∧ (shiftRows (shiftRows X)).get r 2 = X.get r 2) ∧
  (∀ v : Byte, shiftRows (Block.ofBytes fun _ => v) = Block.ofBytes fun _ => v) ∧
  shiftRows (bytesOf 0x000102030405060708090a0b0c0d0e0f) = bytesOf 0x00050a0f04090e03080d02070c01060b

/-- 43_round_pipeline.md R142: MixColumns written out for a row in `xtime` form; rows are mixed
independently; the map is linear over XOR; a row of four equal bytes and the zero block are unchanged. -/
def Obligations.MixColumnsRule : Prop :=
  (∀ (X : Block) (r j : Fin 4),
    (mixColumns X).get r j =
      gmul (X.get r 0) (mixMatrix.get j 0) ^^^ gmul (X.get r 1) (mixMatrix.get j 1) ^^^
        gmul (X.get r 2) (mixMatrix.get j 2) ^^^ gmul (X.get r 3) (mixMatrix.get j 3)) ∧
  (∀ (X : Block) (r : Fin 4),
    (mixColumns X).get r 0 = xtime (X.get r 0) ^^^ (xtime (X.get r 1) ^^^ X.get r 1) ^^^ X.get r 2 ^^^ X.get r 3 ∧
    (mixColumns X).get r 1 = X.get r 0 ^^^ xtime (X.get r 1) ^^^ (xtime (X.get r 2) ^^^ X.get r 2) ^^^ X.get r 3 ∧
    (mixColumns X).get r 2 = X.get r 0 ^^^ X.get r 1 ^^^ xtime (X.get r 2) ^^^ (xtime (X.get r 3) ^^^ X.get r 3) ∧
    (mixColumns X).get r 3 = (xtime (X.get r 0) ^^^ X.get r 0) ^^^ X.get r 1 ^^^ X.get r 2 ^^^ xtime (X.get r 3)) ∧
  (∀ (X Y : Block) (r : Fin 4), X.row r = Y.row r → (mixColumns X).row r = (mixColumns Y).row r) ∧
  (∀ X Y : Block, mixColumns (xorBlock X Y) = xorBlock (mixColumns X) (mixColumns Y)) ∧
  (∀ (X : Block) (r : Fin 4) (v : Byte), X.row r = ⟨v, v, v, v⟩ → (mixColumns X).row r = ⟨v, v, v, v⟩) ∧
  mixColumns Block.zero = Block.zero ∧
  mixColumns (bytesOf 0xdb135345f20a225c01010101c6c6c6c6) = bytesOf 0x8e4da1bc9fdc589d01010101c6c6c6c6

/-- 43_round_pipeline.md R143 with 10_state.md R24: AddRoundKey reads row `r` of round key `n` from word
`4*n + r`; a zero round key changes nothing; twice the same round key restores the block. -/
def Obligations.AddRoundKeyRule : Prop :=
  (∀ (W : KeyStore) (X : Block) (n : Fin 11) (r c : Fin 4),
    (roundKey W n).get r c = (W[4 * n.val + r.val]'(by omega)).get c ∧
    (addRoundKey W X n).get r c = X.get r c ^^^ (W[4 * n.val + r.val]'(by omega)).get c) ∧
  (∀ (W : KeyStore) (X : Block) (n : Fin 11), roundKey W n = Block.zero → addRoundKey W X n = X) ∧
  (∀ (W : KeyStore) (X : Block) (n : Fin 11), addRoundKey W (addRoundKey W X n) n = X) ∧
  addRoundKey (storeKey (bytesOf 0x2b7e151628aed2a6abf7158809cf4f3c) (Vector.replicate 44 Word.zero))
    (bytesOf 0x3243f6a8885a308d313198a2e0370734) 0 = bytesOf 0x193de3bea0f4e22b9ac68d2ae9f84808

/-- 43_round_pipeline.md R144, R145: the composition of a full round and of the final round, with the
worked example of each. -/
def Obligations.RoundComposition : Prop :=
  (∀ (W : KeyStore) (X : Block) (n : Fin 11),
    fullRound W X n = addRoundKey W (mixColumns (shiftRows (subBytes X))) n) ∧
  (∀ (W : KeyStore) (X : Block), finalRound W X = addRoundKey W (shiftRows (subBytes X)) 10) ∧
  subBytes (bytesOf 0x193de3bea0f4e22b9ac68d2ae9f84808) = bytesOf 0xd42711aee0bf98f1b8b45de51e415230 ∧
  shiftRows (bytesOf 0xd42711aee0bf98f1b8b45de51e415230) = bytesOf 0xd4bf5d30e0b452aeb84111f11e2798e5 ∧
  mixColumns (bytesOf 0xd4bf5d30e0b452aeb84111f11e2798e5) = bytesOf 0x046681e5e0cb199a48f8d37a2806264c ∧
  fullRound (expand (bytesOf 0x2b7e151628aed2a6abf7158809cf4f3c))
    (bytesOf 0x193de3bea0f4e22b9ac68d2ae9f84808) 1 = bytesOf 0xa49c7ff2689f352b6b5bea43026a5049 ∧
  finalRound (expand (bytesOf 0x2b7e151628aed2a6abf7158809cf4f3c))
    (bytesOf 0xeb40f21e592e38848ba113e71bc342d2) = bytesOf 0x3925841d02dc09fbdc118597196a0b32

/-- 43_round_pipeline.md R151 with 00_scope.md R12: transposed, each transform of the engine is the usual
one, and the engine's row-major block function is the usual column-major cipher, at every key store and
block. -/
def Obligations.AgreesWithTheTextbookCipher : Prop :=
  (∀ (B : Block) (r c : Fin 4), textbookState B c r = B.get r c) ∧
  (∀ X : Block, textbookState (shiftRows X) = textbookShiftRows (textbookState X)) ∧
  (∀ X : Block, textbookState (mixColumns X) = textbookMixColumns (textbookState X)) ∧
  (∀ (W : KeyStore) (X : Block) (n : Fin 11),
    textbookState (addRoundKey W X n) = textbookAddRoundKey W n (textbookState X)) ∧
  ∀ (W : KeyStore) (P : Block), textbookState (encryptWith W P) = textbookCipher W (textbookState P)

/-- 95_test_vectors.md §1.2, required by 00_scope.md R2: the three standard vectors. -/
def Obligations.StandardVectors : Prop :=
  wordOf (blockCipher (bytesOf 0) (bytesOf 0)) = 0x66e94bd4ef8a2c3b884cfa59ca342b2e ∧
  wordOf (blockCipher (bytesOf 0x000102030405060708090a0b0c0d0e0f)
    (bytesOf 0x00112233445566778899aabbccddeeff)) = 0x69c4e0d86a7b0430d8cdb78070b4c55a ∧
  wordOf (blockCipher (bytesOf 0x2b7e151628aed2a6abf7158809cf4f3c)
    (bytesOf 0x3243f6a8885a308d313198a2e0370734)) = 0x3925841d02dc09fbdc118597196a0b32

/-! ### The key schedule -/

/-- 42_key_schedule.md R122 to R125: the recurrence, bytewise, with the worked examples. -/
def Obligations.NextWordRecurrence : Prop :=
  (∀ w : Word, rotWord w = ⟨w.get 1, w.get 2, w.get 3, w.get 0⟩) ∧
  (∀ w : Word, subWord w = ⟨sbox (w.get 0), sbox (w.get 1), sbox (w.get 2), sbox (w.get 3)⟩) ∧
  (∀ (i : Fin 44) (prev back4 : Word), 4 ≤ i.val → i.val % 4 = 0 →
    ∃ k : Fin 10, k.val = i.val / 4 - 1 ∧
    nextWord i prev back4 = ⟨sbox (prev.get 1) ^^^ rcon k ^^^ back4.get 0, sbox (prev.get 2) ^^^ back4.get 1,
      sbox (prev.get 3) ^^^ back4.get 2, sbox (prev.get 0) ^^^ back4.get 3⟩) ∧
  (∀ (i : Fin 44) (prev back4 : Word), i.val % 4 ≠ 0 →
    ∀ j : Fin 4, (nextWord i prev back4).get j = prev.get j ^^^ back4.get j) ∧
  rotWord ⟨0x09, 0xcf, 0x4f, 0x3c⟩ = ⟨0xcf, 0x4f, 0x3c, 0x09⟩ ∧
  subWord ⟨0xcf, 0x4f, 0x3c, 0x09⟩ = ⟨0x8a, 0x84, 0xeb, 0x01⟩ ∧
  roundConstant 4 = 0x01 ∧ roundConstant 40 = 0x36 ∧
  xorFirst ⟨0x8a, 0x84, 0xeb, 0x01⟩ (roundConstant 4) = ⟨0x8b, 0x84, 0xeb, 0x01⟩ ∧
  nextWord 4 ⟨0x09, 0xcf, 0x4f, 0x3c⟩ ⟨0x2b, 0x7e, 0x15, 0x16⟩ = ⟨0xa0, 0xfa, 0xfe, 0x17⟩

/-- 42_key_schedule.md R126, R127: `expand(K)` is the key split and the recurrence, and no other store
is: the 44 words are a function of the 16 key bytes. -/
def Obligations.ExpansionIsUnique : Prop :=
  ∀ (K : Block) (W : KeyStore), IsExpansion K W ↔ W = expand K

/-! ### The commands, at their accepting edges -/

/-- 42_key_schedule.md R120: LOAD_KEY in every state. Nothing but the named registers changes. -/
def Obligations.LoadKeyAcceptingEdge : Prop :=
  (∀ (s : State) (len : BitVec 4) (keyIn dataIn : BitVec 128),
    ∃ W', exec (.loadKey len keyIn dataIn) s =
        .next { s with W := W', keyValid := false, ctr := 4, phase := .keyexp,
                       outValid := false, err := false, errCode := 0 } ∧
      (∀ i j : Fin 4, (W'[i.val]'(by omega)).get j = (bytesOf keyIn).byte ⟨4 * i.val + j.val, by omega⟩) ∧
      ∀ i (h : 4 ≤ i ∧ i < 44), W'[i]'h.2 = s.W[i]'h.2) ∧
  (∀ (s t : State) (len : BitVec 4) (keyIn dataIn : BitVec 128),
    exec (.loadKey len keyIn dataIn) s = .next t → t.busy = true) ∧
  (storeKey (bytesOf 0x000102030405060708090a0b0c0d0e0f) State.reset.W)[0] = ⟨0x00, 0x01, 0x02, 0x03⟩ ∧
  (storeKey (bytesOf 0x000102030405060708090a0b0c0d0e0f) State.reset.W)[3] = ⟨0x0c, 0x0d, 0x0e, 0x0f⟩

/-- 43_round_pipeline.md R146: ENCRYPT with a key loads the block and does AddRoundKey 0; without one it
raises NO_KEY. Nothing but the named registers changes. -/
def Obligations.EncryptAcceptingEdge : Prop :=
  (∀ (s : State) (len : BitVec 4) (keyIn dataIn : BitVec 128), s.keyValid = true →
    ∃ S', exec (.encrypt len keyIn dataIn) s =
        .next { s with S := S', ctr := 1, phase := .enc, outValid := false, err := false, errCode := 0 } ∧
      ∀ r c : Fin 4, S'.get r c =
        (bytesOf dataIn).byte ⟨4 * r.val + c.val, by omega⟩ ^^^ (s.W[r.val]'(by omega)).get c) ∧
  (∀ (s : State) (len : BitVec 4) (keyIn dataIn : BitVec 128), s.keyValid = false →
    exec (.encrypt len keyIn dataIn) s = .next { s with outValid := false, err := true, errCode := 2 }) ∧
  ∀ (W : KeyStore), roundKey W 0 = Block.zero → addRoundKey W (bytesOf 0) 0 = Block.zero

/-- 44_block_driver.md R171: ENCRYPT_PAD, as ENCRYPT on the padded chunk, for every length. -/
def Obligations.EncryptPadAcceptingEdge : Prop :=
  (∀ (s : State) (len : BitVec 4) (keyIn dataIn : BitVec 128), s.keyValid = true →
    ∃ S', exec (.encryptPad len keyIn dataIn) s =
        .next { s with S := S', ctr := 1, phase := .enc, outValid := false, err := false, errCode := 0 } ∧
      ∀ r c : Fin 4, S'.get r c =
        (if h : 4 * r.val + c.val < len.toNat then (bytesOf dataIn).byte ⟨4 * r.val + c.val, by omega⟩
          else BitVec.ofNat 8 (16 - len.toNat)) ^^^ (s.W[r.val]'(by omega)).get c) ∧
  (∀ (s : State) (len : BitVec 4) (keyIn dataIn : BitVec 128), s.keyValid = false →
    exec (.encryptPad len keyIn dataIn) s = .next { s with outValid := false, err := true, errCode := 2 }) ∧
  ∀ dataIn : BitVec 128,
    wordOf (blockCipher (bytesOf 0x000102030405060708090a0b0c0d0e0f) (pad (bytesOf dataIn) 0)) =
      0x954f64f2e4e86e9eee82d20216684899

/-- 60_exceptions.md R192, R194 and 30_encoding.md R85: RSVD raises ILLEGAL_OP in every state, whatever
its operands, and changes nothing else; from reset it leaves `status` = 0x58. -/
def Obligations.ReservedCommandRaisesIllegalOp : Prop :=
  (∀ (s : State) (len : BitVec 4) (keyIn dataIn : BitVec 128),
    exec (.rsvd len keyIn dataIn) s = .next { s with outValid := false, err := true, errCode := 1 }) ∧
  ∀ (len : BitVec 4) (keyIn dataIn : BitVec 128) (t : State),
    exec (.rsvd len keyIn dataIn) State.reset = .next t → t.status false = 0x58

/-- 60_exceptions.md R193: without a valid key neither encrypting command starts: NO_KEY, and nothing but
the three outcome registers is written. There is no valid key after reset, nor in any state of a run
while a key expands. -/
def Obligations.NoKeyRejectsEncryption : Prop :=
  (∀ (s : State) (len : BitVec 4) (keyIn dataIn : BitVec 128), s.keyValid = false →
    exec (.encrypt len keyIn dataIn) s = .next { s with outValid := false, err := true, errCode := 2 } ∧
    exec (.encryptPad len keyIn dataIn) s = .next { s with outValid := false, err := true, errCode := 2 }) ∧
  State.reset.keyValid = false ∧ ∀ s : State, s.Inv → s.phase = .keyexp → s.keyValid = false

/-- 60_exceptions.md R196, R190: the priority at one edge. Reset comes first, and then nothing is
accepted; in a busy phase nothing is accepted; an accepted command's `op` and `key_valid` decide the one
error it can have, a rejected command has no other effect, and one that is not rejected starts. -/
def Obligations.RejectionPriority : Prop :=
  (∀ s : State, s.pins.rst = true → s.accepts = false ∧ edge s = .next (resetRegisters s)) ∧
  (∀ s : State, s.phase ≠ .idle → s.accepts = false) ∧
  ∀ (i : Instr) (s : State), ∃ t, exec i s = .next t ∧
    t.errCode = rejectionCode i s.keyValid ∧ (t.err = true ↔ rejectionCode i s.keyValid ≠ 0) ∧
    (t.err = true → t = { s with outValid := false, err := true, errCode := t.errCode }) ∧
    (t.err = false → t.busy = true)

/-! ### One clock edge -/

/-- A step is the accepting edge of the decoded command when `rst` = 0, `cmd_valid` = 1 and the engine is
in IDLE (10_state.md R32, R38); around it the host's plan moves on and the record is kept, which is the
model's own. -/
def Obligations.StepRunsTheDecodedCommand : Prop :=
  (∀ s : State, s.pins.rst = false → s.pins.cmdValid = true → s.phase = .idle →
    step s = afterEdge s (exec (decode s.pins.command) s)) ∧
  ∀ (s : State) (i : Instr) (rest : List HostAction), s.phase = .idle →
    s.script = .offer (encode i) :: rest →
    ∃ t, exec i s = .next t ∧
      step s = .next { t with
        script := rest
        statusLog := s.statusLog ++ [t.status false]
        rejectLog := if t.err then s.rejectLog ++ [⟨(encode i).cmd, t.errCode⟩] else s.rejectLog }

/-- 70_reset_and_hazards.md section 1: at an edge with `rst` = 1 every register takes its reset value,
whatever the phase and the offer; a command under way leaves no key and no output. That the host's plan
moves on (log entry 2) and that the three record lists are emptied (log entry 6) are DESIGN CHOICEs of the
model, which the equality says too. -/
def Obligations.ResetEdge : Prop :=
  ∀ s : State, s.pins.rst = true →
    s.accepts = false ∧ step s = .next { State.reset with script := s.planAfter }

/-- 70_reset_and_hazards.md R214: the reset values, and the outputs with `rst` = 0. -/
def Obligations.ResetValues : Prop :=
  (State.reset.phase = .idle ∧ State.reset.ctr = 0 ∧
    (∀ i (h : i < 44), State.reset.W[i] = ⟨0, 0, 0, 0⟩) ∧ State.reset.keyValid = false ∧
    (∀ k : Fin 16, State.reset.S.byte k = 0) ∧ (∀ k : Fin 16, State.reset.dout.byte k = 0) ∧
    State.reset.outValid = false ∧ State.reset.err = false ∧ State.reset.errCode = 0) ∧
  ∀ p : Pins, p.rst = false → State.reset.outputs p = ⟨true, 0x40, 0, 0⟩

/-- 70_reset_and_hazards.md section 1: while `rst` is held at 1 after a reset edge, `status` reads 0x00 and
`rk_word` reads 0 for every index, and the engine stays in the reset state; the first edge with `rst` = 0 can
accept a command. That the host's plan moves on (log entry 2) and that the three record lists are empty
after a reset edge (log entry 6) are DESIGN CHOICEs of the model, which the equalities say too. -/
def Obligations.HeldResetStaysReset : Prop :=
  ∀ s t : State, s.pins.rst = true → step s = .next t →
    t = { State.reset with script := t.script } ∧
    (∀ p : Pins, p.rst = true → (t.outputs p).status = 0x00 ∧ (t.outputs p).rkWord = 0) ∧
    (t.pins.rst = true → t.accepts = false ∧ step t = .next { t with script := t.planAfter }) ∧
    (t.pins.rst = false → t.pins.cmdValid = true → t.accepts = true)

/-- 60_exceptions.md R204: in IDLE with `cmd_valid` = 0 an edge changes no register. The host's plan, which
moves on, is the model's own (log entry 2). -/
def Obligations.IdleChangesNothing : Prop :=
  ∀ s : State, s.phase = .idle → s.pins.rst = false → s.pins.cmdValid = false →
    step s = .next { s with script := s.planAfter }

/-- 10_state.md R32 and 70_reset_and_hazards.md R216, back-pressure: in a busy phase, with `rst` = 0, the
registers after an edge do not depend on what the host offers, and an offered command stays offered. -/
def Obligations.BusyEdgeIgnoresTheOffer : Prop :=
  (∀ (s u : State) (plan : List HostAction), s.phase ≠ .idle → s.pins.rst = false →
    (State.pins { s with script := plan }).rst = false →
    edge s = .next u → edge { s with script := plan } = .next { u with script := plan }) ∧
  (∀ s : State, s.cmdReady s.pins.rst = false → s.accepts = false) ∧
  ∀ (s : State) (c : Command) (rest : List HostAction), s.phase ≠ .idle →
    s.script = .offer c :: rest → s.planAfter = .offer c :: rest

/-- 42_key_schedule.md R121: the KEYEXP edge, whatever the host offers, for every `ctr` of the phase.
`record` around the next registers moves the host's plan and the record on, the model's own (log entries 2
and 6). -/
def Obligations.KeyExpansionEdge : Prop :=
  (∀ (s : State) (h : 4 ≤ s.ctr.toNat ∧ s.ctr.toNat ≤ 43), s.phase = .keyexp → s.pins.rst = false →
    ∃ W' u, step s = .next (record s u) ∧
      W'[s.ctr.toNat]'(by omega) =
        nextWord ⟨s.ctr.toNat, by omega⟩ (s.W[s.ctr.toNat - 1]'(by omega)) (s.W[s.ctr.toNat - 4]'(by omega)) ∧
      (∀ j (hj : j < 44), j ≠ s.ctr.toNat → W'[j] = s.W[j]) ∧
      (s.ctr.toNat = 43 → u = { s with W := W', keyValid := true, ctr := 0, phase := .idle }) ∧
      (s.ctr.toNat < 43 → u = { s with W := W', ctr := s.ctr + 1 })) ∧
  (expand (bytesOf 0))[4] = ⟨0x62, 0x63, 0x63, 0x63⟩

/-- 43_round_pipeline.md R147, R148: the ENC edge, whatever the host offers, for every round: a full
round, or the final round and completion, after which `cmd_ready` is 1, `busy` 0 and `out_valid` 1.
`record` around the next registers moves the host's plan and the record on, the model's own (log entries 2
and 6). -/
def Obligations.EncryptionEdge : Prop :=
  ∀ s : State, s.phase = .enc → s.pins.rst = false →
    (∀ r : Fin 11, s.ctr.toNat = r.val → 1 ≤ r.val → r.val < 10 →
      step s = .next (record s { s with S := fullRound s.W s.S r, ctr := s.ctr + 1 })) ∧
    (s.ctr.toNat = 10 →
      step s = .next (record s { s with
        S := finalRound s.W s.S, dout := finalRound s.W s.S, outValid := true, ctr := 0, phase := .idle }) ∧
      ∀ t, step s = .next t → t.cmdReady false = true ∧
        (t.status false).getLsbD 0 = false ∧ (t.status false).getLsbD 2 = true)

/-- 10_state.md R33: every transition of the sequencer from the legal pairs of R27, as the table
`nextSequencer` (Safety.lean) writes them out. -/
def Obligations.SequencerTransitions : Prop :=
  ∀ s t : State, s.SequencerLegal → step s = .next t → (t.phase, t.ctr) = nextSequencer s

/-- The unreachable pairs of 10_state.md R27, to which the spec gives no next state: the model stops in
them with a fault, unless reset is asserted. The fault is the model's choice (log entry 3). -/
def Obligations.UnreachablePairsStop : Prop :=
  ∀ s : State, s.pins.rst = false →
    ((s.phase = .keyexp ∧ (s.ctr.toNat < 4 ∨ 43 < s.ctr.toNat)) ∨
      (s.phase = .enc ∧ (s.ctr.toNat < 1 ∨ 10 < s.ctr.toNat))) →
    step s = .fault .unreachableSequencer

/-- 10_state.md R31: every bit of the `status` port, and the two values the rule derives; bit 6 is the
`cmd_ready` port. -/
def Obligations.StatusBits : Prop :=
  (∀ (s : State) (rst : Bool),
    (s.status rst).getLsbD 0 = decide (s.phase ≠ .idle) ∧
    (s.status rst).getLsbD 1 = s.keyValid ∧
    (s.status rst).getLsbD 2 = s.outValid ∧
    (s.status rst).getLsbD 3 = s.err ∧
    (s.status rst).extractLsb' 4 2 = s.errCode ∧
    (s.status rst).getLsbD 6 = (decide (s.phase = .idle) && !rst) ∧
    (s.status rst).getLsbD 7 = false) ∧
  (∀ (s : State) (p : Pins), (s.outputs p).status = s.status p.rst ∧
    (s.outputs p).cmdReady = (s.outputs p).status.getLsbD 6) ∧
  State.reset.status false = 0x40 ∧ State.reset.status true = 0x00

/-! ### Whole-machine rules -/

/-- 42_key_schedule.md R128 with 10_state.md R23: the key store changes only at a reset edge, at the
accepting edge of LOAD_KEY, and at KEYEXP edges. -/
def Obligations.OnlyLoadKeyAndResetWriteTheKeyStore : Prop :=
  ∀ s t : State, step s = .next t → t.W ≠ s.W →
    s.pins.rst = true ∨ s.phase = .keyexp ∨
      (s.accepts = true ∧ ∃ len k d, decode s.pins.command = .loadKey len k d)

/-- 10_state.md R28: `dout` is written only at the last ENC edge, with the final state, and by reset; the
port shows it with byte 0 in bits [127:120]. -/
def Obligations.DoutIsWrittenAtCompletionOnly : Prop :=
  (∀ s t : State, step s = .next t →
    t.dout =
      if s.pins.rst then Block.zero
      else if s.phase = .enc ∧ s.ctr = 10 then finalRound s.W s.S
      else s.dout) ∧
  ∀ (s : State) (p : Pins) (k : Fin 16),
    (s.outputs p).dout.extractLsb' (120 - 8 * k.val) 8 = s.dout.byte k

/-- 10_state.md R29: `out_valid` is set by a completing edge and cleared by an accepting edge, of any
command, or reset; nothing else changes it. -/
def Obligations.OutValidWindow : Prop :=
  ∀ s t : State, step s = .next t →
    t.outValid =
      if s.pins.rst then false
      else if s.accepts then false
      else if s.phase = .enc ∧ s.ctr = 10 then true
      else s.outValid

/-- 10_state.md R30 with 60_exceptions.md R195: an accepting edge sets `err` and `err_code` from the
command it accepts, reset clears them, and no other edge changes them. -/
def Obligations.ErrorRecordsTheLastCommand : Prop :=
  ∀ s t : State, step s = .next t →
    (t.err, t.errCode) =
      if s.pins.rst then (false, 0)
      else if s.accepts then
        (decide (rejectionCode (decode s.pins.command) s.keyValid ≠ 0),
          rejectionCode (decode s.pins.command) s.keyValid)
      else (s.err, s.errCode)

/-- 10_state.md R25: `key_valid` is cleared at the accepting edge of LOAD_KEY and by reset, set at the
edge that writes `W[43]`, and changed by nothing else. -/
def Obligations.KeyValidWindow : Prop :=
  ∀ s t : State, step s = .next t →
    t.keyValid =
      if s.pins.rst then false
      else if s.accepts ∧ (decode s.pins.command).op = 0b00#2 then false
      else if s.phase = .keyexp ∧ s.ctr = 43 then true
      else s.keyValid

/-- 43_round_pipeline.md R150: two states that agree on everything but key and data values step to two
that do, and show the same `status`; so no control decision depends on key or data. -/
def Obligations.ControlIgnoresKeyAndData : Prop :=
  ∀ s₁ s₂ t₁ : State, SameControl s₁ s₂ → step s₁ = .next t₁ →
    ∃ t₂, step s₂ = .next t₂ ∧ SameControl t₁ t₂ ∧ ∀ rst, t₁.status rst = t₂.status rst

/-- 70_reset_and_hazards.md R222, the model's own sticky record: an edge without reset keeps every
rejection recorded and adds one exactly when it accepts a command and rejects it. -/
def Obligations.RejectionsAreRemembered : Prop :=
  ∀ s t : State, s.pins.rst = false → step s = .next t →
    t.rejectLog = s.rejectLog ++
      if s.accepts ∧ rejectionCode (decode s.pins.command) s.keyValid ≠ 0 then
        [⟨s.pins.cmd, rejectionCode (decode s.pins.command) s.keyValid⟩] else []

/-- The invariant holds at reset. -/
def Obligations.InvAtReset : Prop := State.reset.Inv

/-- Every step keeps the invariant: the pairs of R27, the error codes of R191, and above all R25, that
a valid key means a complete expansion. -/
def Obligations.StepKeepsInv : Prop := ∀ s t : State, s.Inv → step s = .next t → t.Inv

/-- Under the invariant no step faults or is refused: whatever the host does, the engine has a next
state (70_reset_and_hazards.md R222: "no hang is possible"). -/
def Obligations.InvStepsOn : Prop := ∀ s : State, s.Inv → ∃ t, step s = .next t

/-! ### Runs -/

/-- 42_key_schedule.md R126 with 70_reset_and_hazards.md R218: `j` edges after the accepting edge of
LOAD_KEY, without reset and whatever else the host does, words below `4 + j` are those of `expand(K)` and
the others are the old ones; `key_valid` is 1 and the engine ready exactly after 40, and then the store is
the key split and the recurrence, whatever it held before (R127). -/
def Obligations.LoadKeyRun : Prop :=
  ∀ (s : State) (len : BitVec 4) (keyIn dataIn : BitVec 128) (rest : List HostAction) (j : Nat),
    s.phase = .idle → s.script = .offer (encode (.loadKey len keyIn dataIn)) :: rest → NoReset rest →
    j ≤ 40 →
    ∃ t, runFor (1 + j) s = .next t ∧
      (∀ i (h : i < 44), t.W[i] = if i < 4 + j then (expand (bytesOf keyIn))[i] else s.W[i]) ∧
      (j = 40 → IsExpansion (bytesOf keyIn) t.W) ∧
      t.keyValid = decide (j = 40) ∧ t.busy = decide (j < 40) ∧
      t.S = s.S ∧ t.dout = s.dout ∧ t.outValid = false ∧ t.err = false ∧ t.errCode = 0 ∧
      (j < 40 → t.phase = .keyexp ∧ t.ctr.toNat = 4 + j) ∧ (j = 40 → t.phase = .idle ∧ t.ctr = 0)

/-- 43_round_pipeline.md R149: an ENCRYPT or ENCRYPT_PAD accepted under a valid key gives, after exactly
10 more edges without reset and whatever else the host does, the ciphertext of its block under the round
keys the store holds; the previous `dout` stands until then. The last clause is about `doutLog`, the record
of `dout` samples of 70_reset_and_hazards.md R222 as the model keeps it (DESIGN CHOICE, log entry 6). -/
def Obligations.EncryptRun : Prop :=
  ∀ (s : State) (i : Instr) (P : Block) (rest : List HostAction) (j : Nat),
    s.phase = .idle → s.keyValid = true → s.script = .offer (encode i) :: rest → NoReset rest →
    ((∃ len k d, i = .encrypt len k d ∧ P = bytesOf d) ∨
      (∃ len k d, i = .encryptPad len k d ∧ P = pad (bytesOf d) len)) →
    j ≤ 10 →
    ∃ t, runFor (1 + j) s = .next t ∧
      t.W = s.W ∧ t.keyValid = true ∧ t.err = false ∧ t.errCode = 0 ∧
      t.busy = decide (j < 10) ∧ t.outValid = decide (j = 10) ∧
      t.dout = (if j = 10 then encryptWith s.W P else s.dout) ∧
      t.doutLog = s.doutLog ++ (if j = 10 then [encryptWith s.W P] else [])

/-- The whole engine end to end (42_key_schedule.md R126, 43_round_pipeline.md R149,
70_reset_and_hazards.md R219, R221): from any state of the engine in IDLE, whatever key it held, a
LOAD_KEY and then an ENCRYPT give `E(K, P)` on the `dout` port after exactly 41 + 11 edges, at which the run
ends. -/
def Obligations.LoadKeyThenEncryptGivesAes : Prop :=
  ∀ (s : State) (len len' : BitVec 4) (key data k' d' : BitVec 128) (p : Pins),
    s.phase = .idle →
    s.script = [.offer (encode (.loadKey len key d')), .offer (encode (.encrypt len' k' data))] →
    ∃ t, RunEndsAt s (Config.latKeyexp + 1 + (Config.latEnc + 1)) t ∧ t.script = [] ∧
      t.outValid = true ∧ t.err = false ∧
      (t.outputs p).dout = wordOf (blockCipher (bytesOf key) (bytesOf data))

/-- 44_block_driver.md R173, R175: encrypting a byte stream of length `L` under a valid key takes
`floor(L/16) + 1` encrypting commands and, offered back to back, 11 edges each; the `dout` values in
command order are the ciphertexts of its chunks and of its padded last chunk. They are read off `doutLog`,
the model's record of the samples of 70_reset_and_hazards.md R222 (log entry 6). -/
def Obligations.StreamRun : Prop :=
  ∀ (s : State) (bytes : List Byte), s.phase = .idle → s.keyValid = true →
    s.script = expandLine (.encStream bytes) →
    ∃ t, RunEndsAt s (11 * (bytes.length / 16 + 1)) t ∧ t.script = [] ∧ t.W = s.W ∧ t.keyValid = true ∧
      t.doutLog = s.doutLog ++ (streamBlocks bytes).map (encryptWith s.W) ∧
      (streamBlocks bytes).length = bytes.length / 16 + 1

/-- The bytes of the stream's blocks are the stream, followed by `p` bytes equal to `p`, where `p` is 16
less `L mod 16` (44_block_driver.md R170, R173). -/
def Obligations.StreamBlocksHoldTheStream : Prop :=
  ∀ bytes : List Byte,
    (streamBlocks bytes).flatMap (fun B => (List.finRange 16).map B.byte) =
      bytes ++ List.replicate (16 - bytes.length % 16) (BitVec.ofNat 8 (16 - bytes.length % 16))

/-- 70_reset_and_hazards.md R222: a run under a finite list of commands ends: from a state of the engine
in IDLE, a list of `k` commands is accepted whole and done within `41 * k` edges, with one `status`
sampled for each, in the model's record of R222 (log entry 6). What the host does after the last command,
offering none and without reset, makes the run no longer; when it does nothing, the plan is used up. That a run of no command ends after no edge
is the model's choice (log entry 16). -/
def Obligations.EveryFiniteRunEnds : Prop :=
  ∀ (s : State) (cs : List Command) (rest : List HostAction), s.phase = .idle →
    s.script = cs.map .offer ++ rest → rest.any offersCommand = false → NoReset rest →
    ∃ n t, n ≤ 41 * cs.length ∧ RunEndsAt s n t ∧ (rest = [] → t.script = []) ∧
      t.statusLog.length = s.statusLog.length + cs.length

/-- 70_reset_and_hazards.md R222 with 60_exceptions.md R204: at the end of a run the engine is ready and not
busy, and after it no later edge without reset changes a register or the observation, whatever is left of
the host's plan. (At a reset edge ResetEdge holds.) That the plan moves on, and that an exhausted one offers
nothing, is the model's own (log entry 2). -/
def Obligations.NothingHappensAfterTheEnd : Prop :=
  ∀ s : State, s.RunOver →
    s.busy = false ∧ s.cmdReady false = true ∧
    (NoReset s.script → ∀ n, ∃ t, runFor n s = .next t ∧ t = { s with script := t.script } ∧
      t.observation = s.observation ∧ t.RunOver) ∧
    (s.script = [] → ∀ n, runFor n s = .next s)

/-- 60_exceptions.md R194 with 70_reset_and_hazards.md R221, the rows with no busy edges: a rejected
command sets `err` and its code and writes nothing else but the common clear; it is done at its accepting
edge, and the engine is ready for the next. -/
def Obligations.RejectedCommandTakesOneEdge : Prop :=
  ∀ (s : State) (i : Instr) (rest : List HostAction), s.phase = .idle →
    s.script = .offer (encode i) :: rest → rejectionCode i s.keyValid ≠ 0 →
    ∃ t, runFor 1 s = .next t ∧ t.err = true ∧ t.errCode = rejectionCode i s.keyValid ∧
      t.outValid = false ∧ t.phase = .idle ∧ t.cmdReady false = true ∧ t.script = rest ∧
      t.W = s.W ∧ t.keyValid = s.keyValid ∧ t.S = s.S ∧ t.dout = s.dout ∧ t.ctr = s.ctr

/-! ### The assembly language -/

/-- 30_encoding.md R87: the command word and the operands of each command line, for well-formed lines. -/
def Obligations.CommandLinesAssemble : Prop :=
  (∀ key : List Byte, (AsmLine.loadKey key).wellFormed = true →
    ∃ k : BitVec 128, expandLine (.loadKey key) = [.offer ⟨0x00, k, 0⟩] ∧
      ∀ (b : Fin 16) (h : b.val < key.length), (bytesOf k).byte b = key[b.val]) ∧
  (∀ block : List Byte, (AsmLine.enc block).wellFormed = true →
    ∃ d : BitVec 128, expandLine (.enc block) = [.offer ⟨0x01, 0, d⟩] ∧
      ∀ (b : Fin 16) (h : b.val < block.length), (bytesOf d).byte b = block[b.val]) ∧
  (∀ (len : Nat) (chunk : List Byte), (AsmLine.encPad len chunk).wellFormed = true →
    ∃ d : BitVec 128, expandLine (.encPad len chunk) = [.offer ⟨BitVec.ofNat 6 (len * 4 + 2), 0, d⟩] ∧
      ∀ b : Fin 16, (bytesOf d).byte b = chunk.getD b.val 0) ∧
  ∀ len : Nat, (AsmLine.rsvd len).wellFormed = true →
    expandLine (.rsvd len) = [.offer ⟨BitVec.ofNat 6 (len * 4 + 3), 0, 0⟩]

/-- 30_encoding.md R88: the expansion of every pseudo-instruction, and what WAITREADY, IDLE and RESET put
on the ports. That an IDLE line waits for the line before it is the model's reading of 95_test_vectors.md
§3.5 (log entry 12), and that a RESET line does not is its choice (log entry 13). -/
def Obligations.PseudoInstructionsExpand : Prop :=
  expandLine .waitReady = [.waitReady] ∧ (∀ n : Nat, expandLine (.idle n) = [.waitReady, .idle n]) ∧
  expandLine .reset = [.reset] ∧ expandLine .padBlock = expandLine (.encPad 0 []) ∧
  (∀ chunk : List Byte, expandLine (.encLast chunk) = expandLine (.encPad chunk.length chunk)) ∧
  (∀ bytes : List Byte, expandLine (.encStream bytes) =
    (List.range (bytes.length / 16)).flatMap
        (fun b => expandLine (.enc ((bytes.drop (16 * b)).take 16))) ++
      expandLine (.encLast (bytes.drop (16 * (bytes.length / 16))))) ∧
  (∀ rest : List HostAction, present true (.waitReady :: rest) = present true rest ∧
    present false (.waitReady :: rest) = (quietPins, .waitReady :: rest)) ∧
  (∀ (ready : Bool) (n : Nat) (rest : List HostAction),
    present ready (.idle 0 :: rest) = present ready rest ∧
    present ready (.idle (n + 1) :: rest) = (quietPins, .idle n :: rest)) ∧
  (∀ (ready : Bool) (rest : List HostAction), present ready (.reset :: rest) = (resetPins, rest)) ∧
  quietPins.cmdValid = false ∧ quietPins.rst = false ∧ resetPins.rst = true
end

