-- ==== Sys2Proof/Laws/State.lean ====
section
/-! SUPPORT. What each update of the state does to each field: one lemma per field and update, true by
rfl, so that no later proof unfolds a record update. -/

namespace Sys2Proof.Machine

variable (s t : State)

@[simp] theorem clearOutcome_phase : (clearOutcome s).phase = s.phase := rfl
@[simp] theorem clearOutcome_ctr : (clearOutcome s).ctr = s.ctr := rfl
@[simp] theorem clearOutcome_W : (clearOutcome s).W = s.W := rfl
@[simp] theorem clearOutcome_keyValid : (clearOutcome s).keyValid = s.keyValid := rfl
@[simp] theorem clearOutcome_S : (clearOutcome s).S = s.S := rfl
@[simp] theorem clearOutcome_dout : (clearOutcome s).dout = s.dout := rfl
@[simp] theorem clearOutcome_outValid : (clearOutcome s).outValid = false := rfl
@[simp] theorem clearOutcome_err : (clearOutcome s).err = false := rfl
@[simp] theorem clearOutcome_errCode : (clearOutcome s).errCode = codeNone := rfl
@[simp] theorem clearOutcome_script : (clearOutcome s).script = s.script := rfl
@[simp] theorem clearOutcome_statusLog : (clearOutcome s).statusLog = s.statusLog := rfl
@[simp] theorem clearOutcome_doutLog : (clearOutcome s).doutLog = s.doutLog := rfl
@[simp] theorem clearOutcome_rejectLog : (clearOutcome s).rejectLog = s.rejectLog := rfl

@[simp] theorem raiseError_phase (code : BitVec 2) : (raiseError code s).phase = s.phase := rfl
@[simp] theorem raiseError_ctr (code : BitVec 2) : (raiseError code s).ctr = s.ctr := rfl
@[simp] theorem raiseError_W (code : BitVec 2) : (raiseError code s).W = s.W := rfl
@[simp] theorem raiseError_keyValid (code : BitVec 2) : (raiseError code s).keyValid = s.keyValid := rfl
@[simp] theorem raiseError_S (code : BitVec 2) : (raiseError code s).S = s.S := rfl
@[simp] theorem raiseError_dout (code : BitVec 2) : (raiseError code s).dout = s.dout := rfl
@[simp] theorem raiseError_outValid (code : BitVec 2) : (raiseError code s).outValid = s.outValid := rfl
@[simp] theorem raiseError_err (code : BitVec 2) : (raiseError code s).err = true := rfl
@[simp] theorem raiseError_errCode (code : BitVec 2) : (raiseError code s).errCode = code := rfl
@[simp] theorem raiseError_script (code : BitVec 2) : (raiseError code s).script = s.script := rfl
@[simp] theorem raiseError_statusLog (code : BitVec 2) : (raiseError code s).statusLog = s.statusLog := rfl
@[simp] theorem raiseError_doutLog (code : BitVec 2) : (raiseError code s).doutLog = s.doutLog := rfl
@[simp] theorem raiseError_rejectLog (code : BitVec 2) : (raiseError code s).rejectLog = s.rejectLog := rfl

@[simp] theorem startBlock_phase (P : Block) : (startBlock P s).phase = .enc := rfl
@[simp] theorem startBlock_ctr (P : Block) : (startBlock P s).ctr = 1 := rfl
@[simp] theorem startBlock_W (P : Block) : (startBlock P s).W = s.W := rfl
@[simp] theorem startBlock_keyValid (P : Block) : (startBlock P s).keyValid = s.keyValid := rfl
@[simp] theorem startBlock_S (P : Block) : (startBlock P s).S = addRoundKey s.W P 0 := rfl
@[simp] theorem startBlock_dout (P : Block) : (startBlock P s).dout = s.dout := rfl
@[simp] theorem startBlock_outValid (P : Block) : (startBlock P s).outValid = s.outValid := rfl
@[simp] theorem startBlock_err (P : Block) : (startBlock P s).err = s.err := rfl
@[simp] theorem startBlock_errCode (P : Block) : (startBlock P s).errCode = s.errCode := rfl
@[simp] theorem startBlock_script (P : Block) : (startBlock P s).script = s.script := rfl
@[simp] theorem startBlock_statusLog (P : Block) : (startBlock P s).statusLog = s.statusLog := rfl
@[simp] theorem startBlock_doutLog (P : Block) : (startBlock P s).doutLog = s.doutLog := rfl
@[simp] theorem startBlock_rejectLog (P : Block) : (startBlock P s).rejectLog = s.rejectLog := rfl

@[simp] theorem startExpansion_phase (K : Block) : (startExpansion K s).phase = .keyexp := rfl
@[simp] theorem startExpansion_ctr (K : Block) : (startExpansion K s).ctr = 4 := rfl
@[simp] theorem startExpansion_W (K : Block) : (startExpansion K s).W = storeKey K s.W := rfl
@[simp] theorem startExpansion_keyValid (K : Block) : (startExpansion K s).keyValid = false := rfl
@[simp] theorem startExpansion_S (K : Block) : (startExpansion K s).S = s.S := rfl
@[simp] theorem startExpansion_dout (K : Block) : (startExpansion K s).dout = s.dout := rfl
@[simp] theorem startExpansion_outValid (K : Block) : (startExpansion K s).outValid = s.outValid := rfl
@[simp] theorem startExpansion_err (K : Block) : (startExpansion K s).err = s.err := rfl
@[simp] theorem startExpansion_errCode (K : Block) : (startExpansion K s).errCode = s.errCode := rfl
@[simp] theorem startExpansion_script (K : Block) : (startExpansion K s).script = s.script := rfl
@[simp] theorem startExpansion_statusLog (K : Block) : (startExpansion K s).statusLog = s.statusLog := rfl
@[simp] theorem startExpansion_doutLog (K : Block) : (startExpansion K s).doutLog = s.doutLog := rfl
@[simp] theorem startExpansion_rejectLog (K : Block) : (startExpansion K s).rejectLog = s.rejectLog := rfl

@[simp] theorem completeBlock_phase (C : Block) : (completeBlock C s).phase = .idle := rfl
@[simp] theorem completeBlock_ctr (C : Block) : (completeBlock C s).ctr = 0 := rfl
@[simp] theorem completeBlock_W (C : Block) : (completeBlock C s).W = s.W := rfl
@[simp] theorem completeBlock_keyValid (C : Block) : (completeBlock C s).keyValid = s.keyValid := rfl
@[simp] theorem completeBlock_S (C : Block) : (completeBlock C s).S = s.S := rfl
@[simp] theorem completeBlock_dout (C : Block) : (completeBlock C s).dout = C := rfl
@[simp] theorem completeBlock_outValid (C : Block) : (completeBlock C s).outValid = true := rfl
@[simp] theorem completeBlock_err (C : Block) : (completeBlock C s).err = s.err := rfl
@[simp] theorem completeBlock_errCode (C : Block) : (completeBlock C s).errCode = s.errCode := rfl
@[simp] theorem completeBlock_script (C : Block) : (completeBlock C s).script = s.script := rfl
@[simp] theorem completeBlock_statusLog (C : Block) : (completeBlock C s).statusLog = s.statusLog := rfl
@[simp] theorem completeBlock_doutLog (C : Block) : (completeBlock C s).doutLog = s.doutLog := rfl
@[simp] theorem completeBlock_rejectLog (C : Block) : (completeBlock C s).rejectLog = s.rejectLog := rfl

@[simp] theorem resetRegisters_phase : (resetRegisters s).phase = .idle := rfl
@[simp] theorem resetRegisters_ctr : (resetRegisters s).ctr = 0 := rfl
@[simp] theorem resetRegisters_W : (resetRegisters s).W = Vector.replicate 44 Word.zero := rfl
@[simp] theorem resetRegisters_keyValid : (resetRegisters s).keyValid = false := rfl
@[simp] theorem resetRegisters_S : (resetRegisters s).S = Block.zero := rfl
@[simp] theorem resetRegisters_dout : (resetRegisters s).dout = Block.zero := rfl
@[simp] theorem resetRegisters_outValid : (resetRegisters s).outValid = false := rfl
@[simp] theorem resetRegisters_err : (resetRegisters s).err = false := rfl
@[simp] theorem resetRegisters_errCode : (resetRegisters s).errCode = codeNone := rfl
@[simp] theorem resetRegisters_script : (resetRegisters s).script = s.script := rfl
@[simp] theorem resetRegisters_statusLog : (resetRegisters s).statusLog = s.statusLog := rfl
@[simp] theorem resetRegisters_doutLog : (resetRegisters s).doutLog = s.doutLog := rfl
@[simp] theorem resetRegisters_rejectLog : (resetRegisters s).rejectLog = s.rejectLog := rfl

@[simp] theorem offerNow_phase (c : Command) : (offerNow c s).phase = .idle := rfl
@[simp] theorem offerNow_ctr (c : Command) : (offerNow c s).ctr = 0 := rfl
@[simp] theorem offerNow_W (c : Command) : (offerNow c s).W = s.W := rfl
@[simp] theorem offerNow_keyValid (c : Command) : (offerNow c s).keyValid = s.keyValid := rfl
@[simp] theorem offerNow_S (c : Command) : (offerNow c s).S = s.S := rfl
@[simp] theorem offerNow_dout (c : Command) : (offerNow c s).dout = s.dout := rfl
@[simp] theorem offerNow_outValid (c : Command) : (offerNow c s).outValid = s.outValid := rfl
@[simp] theorem offerNow_err (c : Command) : (offerNow c s).err = s.err := rfl
@[simp] theorem offerNow_errCode (c : Command) : (offerNow c s).errCode = s.errCode := rfl
@[simp] theorem offerNow_script (c : Command) : (offerNow c s).script = .offer c :: s.script := rfl
@[simp] theorem offerNow_statusLog (c : Command) : (offerNow c s).statusLog = s.statusLog := rfl
@[simp] theorem offerNow_doutLog (c : Command) : (offerNow c s).doutLog = s.doutLog := rfl
@[simp] theorem offerNow_rejectLog (c : Command) : (offerNow c s).rejectLog = s.rejectLog := rfl

@[simp] theorem record_phase : (record s t).phase = t.phase := rfl
@[simp] theorem record_ctr : (record s t).ctr = t.ctr := rfl
@[simp] theorem record_W : (record s t).W = t.W := rfl
@[simp] theorem record_keyValid : (record s t).keyValid = t.keyValid := rfl
@[simp] theorem record_S : (record s t).S = t.S := rfl
@[simp] theorem record_dout : (record s t).dout = t.dout := rfl
@[simp] theorem record_outValid : (record s t).outValid = t.outValid := rfl
@[simp] theorem record_err : (record s t).err = t.err := rfl
@[simp] theorem record_errCode : (record s t).errCode = t.errCode := rfl
@[simp] theorem record_script : (record s t).script = s.planAfter := rfl
theorem record_statusLog : (record s t).statusLog =
    if s.pins.rst then [] else if s.accepts then s.statusLog ++ [t.status false] else s.statusLog := rfl
theorem record_doutLog : (record s t).doutLog =
    if s.pins.rst then [] else if completes s t then s.doutLog ++ [t.dout] else s.doutLog := rfl
theorem record_rejectLog : (record s t).rejectLog =
    if s.pins.rst then []
    else if s.accepts && t.err then s.rejectLog ++ [⟨s.pins.cmd, t.errCode⟩] else s.rejectLog := rfl

@[simp] theorem reset_phase : State.reset.phase = .idle := rfl
@[simp] theorem reset_ctr : State.reset.ctr = 0 := rfl
@[simp] theorem reset_W : State.reset.W = Vector.replicate 44 Word.zero := rfl
@[simp] theorem reset_keyValid : State.reset.keyValid = false := rfl
@[simp] theorem reset_S : State.reset.S = Block.zero := rfl
@[simp] theorem reset_dout : State.reset.dout = Block.zero := rfl
@[simp] theorem reset_outValid : State.reset.outValid = false := rfl
@[simp] theorem reset_err : State.reset.err = false := rfl
@[simp] theorem reset_errCode : State.reset.errCode = 0 := rfl
@[simp] theorem reset_script : State.reset.script = [] := rfl
@[simp] theorem reset_statusLog : State.reset.statusLog = [] := rfl
@[simp] theorem reset_doutLog : State.reset.doutLog = [] := rfl
@[simp] theorem reset_rejectLog : State.reset.rejectLog = [] := rfl

end Sys2Proof.Machine
end

