-- ==== Sys2Proof/Laws/HostSide.lean ====
section
/-! SUPPORT. What the host's plan puts on the ports, and what becomes of it, one lemma per action. -/

namespace Sys2Proof.Machine

@[simp] theorem quietPins_rst : quietPins.rst = false := rfl
@[simp] theorem quietPins_cmdValid : quietPins.cmdValid = false := rfl
@[simp] theorem resetPins_rst : resetPins.rst = true := rfl
@[simp] theorem offeringPins_rst (c : Command) : (offeringPins c).rst = false := rfl
@[simp] theorem offeringPins_cmdValid (c : Command) : (offeringPins c).cmdValid = true := rfl
@[simp] theorem offeringPins_cmd (c : Command) : (offeringPins c).cmd = c.cmd := rfl
@[simp] theorem offeringPins_command (c : Command) : (offeringPins c).command = c := rfl

@[simp] theorem present_nil (ready : Bool) : present ready [] = (quietPins, []) := rfl
@[simp] theorem present_drive (ready : Bool) (p : Pins) (rest : List HostAction) :
    present ready (.drive p :: rest) = (p, rest) := rfl
@[simp] theorem present_offer (ready : Bool) (c : Command) (rest : List HostAction) :
    present ready (.offer c :: rest) = (offeringPins c, if ready then rest else .offer c :: rest) := rfl
@[simp] theorem present_reset (ready : Bool) (rest : List HostAction) :
    present ready (.reset :: rest) = (resetPins, rest) := rfl

@[simp] theorem offersCommand_drive (p : Pins) : offersCommand (.drive p) = p.cmdValid := rfl
@[simp] theorem offersCommand_offer (c : Command) : offersCommand (.offer c) = true := rfl
@[simp] theorem offersCommand_waitReady : offersCommand .waitReady = false := rfl
@[simp] theorem offersCommand_idle (n : Nat) : offersCommand (.idle n) = false := rfl
@[simp] theorem offersCommand_reset : offersCommand .reset = false := rfl

/-- A plan that offers no command drives `cmd_valid` = 0 at the next edge, and offers none after it. -/
theorem present_of_no_offer {plan : List HostAction} (h : plan.any offersCommand = false) (ready : Bool) :
    (present ready plan).1.cmdValid = false ∧ (present ready plan).2.any offersCommand = false := by
  induction plan with
  | nil => exact ⟨rfl, h⟩
  | cons a rest ih =>
    obtain ⟨ha, hrest⟩ : offersCommand a = false ∧ rest.any offersCommand = false := by simpa using h
    cases a with
    | drive p => exact ⟨ha, hrest⟩
    | offer c => cases ha
    | waitReady => cases ready with
      | true => exact ih hrest
      | false => exact ⟨rfl, h⟩
    | idle n => cases n with
      | zero => exact ih hrest
      | succ n => exact ⟨rfl, hrest⟩
    | reset => exact ⟨rfl, hrest⟩

/-- An empty plan leaves the ports quiet. -/
theorem pins_of_nil {s : State} (h : s.script = []) : s.pins = quietPins := by
  rw [State.pins, h, present_nil]

/-- An empty plan stays empty. -/
theorem planAfter_of_nil {s : State} (h : s.script = []) : s.planAfter = [] := by
  rw [State.planAfter, h, present_nil]

/-- An offer at the head of the plan stands on the ports. -/
theorem pins_of_offer {s : State} {c : Command} {rest : List HostAction}
    (h : s.script = .offer c :: rest) : s.pins = offeringPins c := by
  rw [State.pins, h, present_offer]

/-- An offer is taken off the plan at the edge that accepts it. -/
theorem planAfter_of_offer_idle {s : State} {c : Command} {rest : List HostAction}
    (h : s.script = .offer c :: rest) (hp : s.phase = .idle) : s.planAfter = rest := by
  simp [State.planAfter, h, hp]

/-- An offer stays on the plan while the engine is busy (70_reset_and_hazards.md R216). -/
theorem planAfter_of_offer_busy {s : State} {c : Command} {rest : List HostAction}
    (h : s.script = .offer c :: rest) (hp : s.phase ≠ .idle) : s.planAfter = .offer c :: rest := by
  simp [State.planAfter, h, hp]

/-- Nothing is accepted in a busy phase (10_state.md R32). -/
theorem accepts_of_busy {s : State} (hp : s.phase ≠ .idle) : s.accepts = false := by
  simp [State.accepts, hp]

/-- Nothing is accepted at a reset edge (70_reset_and_hazards.md R210). -/
theorem accepts_of_rst {s : State} (h : s.pins.rst = true) : s.accepts = false := by
  simp [State.accepts, h]

/-- In IDLE with `rst` = 0 an offered command is accepted, and only then (10_state.md R32). -/
theorem accepts_of_idle {s : State} (h : s.pins.rst = false) (hp : s.phase = .idle) :
    s.accepts = s.pins.cmdValid := by simp [State.accepts, h, hp]

/-- An accepted command was accepted in IDLE with `rst` = 0 and `cmd_valid` = 1 (10_state.md R32). -/
theorem accepts_iff {s : State} :
    s.accepts = true ↔ s.pins.rst = false ∧ s.pins.cmdValid = true ∧ s.phase = .idle := by
  simp [State.accepts, and_assoc]

/-- An edge out of IDLE or KEYEXP completes no block. -/
theorem completes_of_not_enc {s t : State} (h : s.phase ≠ .enc) : completes s t = false := by
  simp [completes, h]

/-- What an edge does to the host's plan and the record when it neither accepts, nor completes, nor
resets: the plan moves on and the record stands. -/
theorem record_quiet {s t : State} (hr : s.pins.rst = false) (ha : s.accepts = false)
    (hc : completes s t = false) :
    record s t = { t with script := s.planAfter, statusLog := s.statusLog, doutLog := s.doutLog,
                          rejectLog := s.rejectLog } := by
  simp [record, hr, ha, hc]

end Sys2Proof.Machine
end

