-- ==== Sys2Proof/Laws/KeyStore.lean ====
section
/-! SUPPORT. Reading the key store after a write, and the bytes of words and blocks after the
operations that build them. -/

namespace Sys2Proof.Machine

/-! ### Words and blocks -/

@[simp] theorem get_ofFn (f : Fin 4 → Byte) (j : Fin 4) : (Word.ofFn f).get j = f j := by
  match j with
  | 0 => rfl
  | 1 => rfl
  | 2 => rfl
  | 3 => rfl

@[simp] theorem row_ofFn (f : Fin 4 → Fin 4 → Byte) (r : Fin 4) :
    (Block.ofFn f).row r = Word.ofFn (f r) := by
  match r with
  | 0 => rfl
  | 1 => rfl
  | 2 => rfl
  | 3 => rfl

@[simp] theorem block_get_ofFn (f : Fin 4 → Fin 4 → Byte) (r c : Fin 4) :
    (Block.ofFn f).get r c = f r c := by simp [Block.get]

@[simp] theorem byte_ofBytes (f : Fin 16 → Byte) (k : Fin 16) : (Block.ofBytes f).byte k = f k := by
  simp only [Block.byte, Block.ofBytes, block_get_ofFn]
  congr 1
  ext
  simp only
  omega

/-- Two words are equal when their bytes are. -/
theorem word_ext {a b : Word} (h : ∀ j : Fin 4, a.get j = b.get j) : a = b := by
  obtain ⟨a0, a1, a2, a3⟩ := a
  obtain ⟨b0, b1, b2, b3⟩ := b
  have h0 : a0 = b0 := h 0
  have h1 : a1 = b1 := h 1
  have h2 : a2 = b2 := h 2
  have h3 : a3 = b3 := h 3
  rw [h0, h1, h2, h3]

/-- Two blocks are equal when their rows are. -/
theorem block_ext_rows {X Y : Block} (h : ∀ r : Fin 4, X.row r = Y.row r) : X = Y := by
  obtain ⟨x0, x1, x2, x3⟩ := X
  obtain ⟨y0, y1, y2, y3⟩ := Y
  have h0 : x0 = y0 := h 0
  have h1 : x1 = y1 := h 1
  have h2 : x2 = y2 := h 2
  have h3 : x3 = y3 := h 3
  rw [h0, h1, h2, h3]

/-- Two blocks are equal when every `X[r][c]` is. -/
theorem block_ext {X Y : Block} (h : ∀ r c : Fin 4, X.get r c = Y.get r c) : X = Y :=
  block_ext_rows fun r => word_ext (h r)

/-- Two blocks are equal when their sixteen bytes are. -/
theorem block_ext_bytes {X Y : Block} (h : ∀ k : Fin 16, X.byte k = Y.byte k) : X = Y := by
  refine block_ext fun r c => ?_
  have hk := h ⟨4 * r.val + c.val, by omega⟩
  have hr : (⟨(4 * r.val + c.val) / 4, by omega⟩ : Fin 4) = r := by ext; simp only; omega
  have hc : (⟨(4 * r.val + c.val) % 4, by omega⟩ : Fin 4) = c := by ext; simp only; omega
  simpa only [Block.byte, hr, hc] using hk

@[simp] theorem get_xorWord (a b : Word) (j : Fin 4) : (xorWord a b).get j = a.get j ^^^ b.get j := by
  simp [xorWord]

@[simp] theorem get_xorBlock (X Y : Block) (r c : Fin 4) :
    (xorBlock X Y).get r c = X.get r c ^^^ Y.get r c := by simp [xorBlock]

/-! ### The key store -/

/-- A word after the key split: one of the key's rows, or the word that was there. -/
theorem getElem_storeKey (K : Block) (W : KeyStore) (i : Nat) (h : i < 44) :
    (storeKey K W)[i] =
      if i = 0 then K.r0 else if i = 1 then K.r1 else if i = 2 then K.r2 else if i = 3 then K.r3
      else W[i] := by
  simp only [storeKey, Vector.getElem_set]
  split_ifs <;> first | rfl | omega

/-- Words from 4 on survive the key split (42_key_schedule.md R120). -/
theorem getElem_storeKey_of_ge (K : Block) (W : KeyStore) (i : Nat) (h : 4 ≤ i ∧ i < 44) :
    (storeKey K W)[i]'h.2 = W[i]'h.2 := by
  rw [getElem_storeKey]
  split_ifs <;> first | rfl | omega

/-- The key split leaves the key in words 0 to 3. -/
theorem storeKey_holdsKey (K : Block) (W : KeyStore) : HoldsKey K (storeKey K W) := by
  refine ⟨?_, ?_, ?_, ?_⟩ <;> rw [getElem_storeKey] <;> rfl

/-- A word after a KEYEXP write: the new word at its own index, the old one elsewhere. -/
theorem getElem_extendStore (W : KeyStore) (i : Nat) (h : 4 ≤ i ∧ i < 44) (j : Nat) (hj : j < 44) :
    (extendStore W i h)[j] =
      if i = j then nextWord ⟨i, h.2⟩ (W[i - 1]'(by omega)) (W[i - 4]'(by omega)) else W[j] := by
  simp only [extendStore, Vector.getElem_set]

/-- A KEYEXP write keeps what is known of the words below it. -/
theorem FollowsRecurrence.extend {W : KeyStore} {i : Nat} (h : 4 ≤ i ∧ i < 44)
    (hW : FollowsRecurrence W i) : FollowsRecurrence (extendStore W i h) (i + 1) := by
  intro j hj hlt
  simp only [getElem_extendStore]
  by_cases hij : i = j
  · subst hij
    rw [if_pos rfl, if_neg (by omega), if_neg (by omega)]
  · rw [if_neg hij, if_neg (by omega), if_neg (by omega)]
    exact hW j hj (by omega)

/-- Nothing is asked of a store before word 4. -/
theorem followsRecurrence_four (W : KeyStore) : FollowsRecurrence W 4 := fun _ h hlt => by omega

/-- `expandUpTo`, one edge further. -/
theorem expandUpTo_succ (K : Block) (n : Nat) (h : n < 40) :
    expandUpTo K (n + 1) = extendStore (expandUpTo K n) (n + 4) (by omega) := by
  simp only [expandUpTo]
  rw [dif_pos (by omega)]

/-- Every word of a round key is one of the store's. -/
theorem row_roundKey (W : KeyStore) (n : Fin 11) (r : Fin 4) :
    (roundKey W n).row r = W[4 * n.val + r.val]'(by omega) := by
  match r with
  | 0 => rfl
  | 1 => rfl
  | 2 => rfl
  | 3 => rfl

@[simp] theorem get_addRoundKey (W : KeyStore) (X : Block) (n : Fin 11) (r c : Fin 4) :
    (addRoundKey W X n).get r c = X.get r c ^^^ (W[4 * n.val + r.val]'(by omega)).get c := by
  simp [addRoundKey, Block.get, row_roundKey, xorBlock]

end Sys2Proof.Machine
end

