-- ==== Sys2Proof/Laws/Ops.lean ====
section
/-! SUPPORT. What each shared operation can do, said once: provers cite these and need not unfold the
operations. -/

namespace Sys2Proof.Machine

/-! ### The accepting edges -/

/-- With a key, the accepting edge of an encrypting command starts the block. -/
theorem acceptBlock_of_key {s : State} (P : Block) (h : s.keyValid = true) :
    acceptBlock P s = startBlock P s := by simp [acceptBlock, h]

/-- Without one, it raises NO_KEY and does nothing else (60_exceptions.md R193). -/
theorem acceptBlock_of_noKey {s : State} (P : Block) (h : s.keyValid = false) :
    acceptBlock P s = raiseError codeNoKey s := by simp [acceptBlock, h]

/-- The common clear does not touch the key. -/
theorem acceptBlock_clear_of_key {s : State} (P : Block) (h : s.keyValid = true) :
    acceptBlock P (clearOutcome s) = startBlock P (clearOutcome s) :=
  acceptBlock_of_key P (by simpa using h)

theorem acceptBlock_clear_of_noKey {s : State} (P : Block) (h : s.keyValid = false) :
    acceptBlock P (clearOutcome s) = raiseError codeNoKey (clearOutcome s) :=
  acceptBlock_of_noKey P (by simpa using h)

/-- An accepting edge does one of three things after the common clear: it starts an expansion, starts
a block under a valid key, or raises an error. -/
theorem exec_cases (i : Instr) (s : State) :
    (∃ K, exec i s = .next (startExpansion K (clearOutcome s))) ∨
    (s.keyValid = true ∧ ∃ P, exec i s = .next (startBlock P (clearOutcome s))) ∨
    (∃ code, (code = codeIllegalOp ∨ code = codeNoKey) ∧
      exec i s = .next (raiseError code (clearOutcome s))) := by
  cases i with
  | loadKey len k d => exact .inl ⟨bytesOf k, rfl⟩
  | rsvd len k d => exact .inr (.inr ⟨codeIllegalOp, .inl rfl, rfl⟩)
  | encrypt len k d =>
    cases hk : s.keyValid with
    | true => exact .inr (.inl ⟨rfl, bytesOf d, by simp [exec, execEncrypt, acceptBlock_clear_of_key, hk]⟩)
    | false =>
      exact .inr (.inr ⟨codeNoKey, .inr rfl, by simp [exec, execEncrypt, acceptBlock_clear_of_noKey, hk]⟩)
  | encryptPad len k d =>
    cases hk : s.keyValid with
    | true =>
      exact .inr (.inl ⟨rfl, pad (bytesOf d) len,
        by simp [exec, execEncryptPad, acceptBlock_clear_of_key, hk]⟩)
    | false =>
      exact .inr (.inr ⟨codeNoKey, .inr rfl, by simp [exec, execEncryptPad, acceptBlock_clear_of_noKey, hk]⟩)

/-- An accepting edge leaves the host's plan and the record to the step. -/
theorem exec_keeps_host {i : Instr} {s t : State} (h : exec i s = .next t) :
    t.script = s.script ∧ t.statusLog = s.statusLog ∧ t.doutLog = s.doutLog ∧ t.rejectLog = s.rejectLog := by
  obtain ⟨K, hK⟩ | ⟨-, P, hP⟩ | ⟨code, -, hc⟩ := exec_cases i s
  · rw [hK] at h; cases h; simp
  · rw [hP] at h; cases h; simp
  · rw [hc] at h; cases h; simp

/-! ### The KEYEXP and ENC edges -/

/-- The KEYEXP edge before the last (42_key_schedule.md R121). -/
theorem keyexpEdge_of_lt {s : State} (h : 4 ≤ s.ctr.toNat ∧ s.ctr.toNat < 43) :
    keyexpEdge s = .next { s with W := extendStore s.W s.ctr.toNat (by omega), ctr := s.ctr + 1 } := by
  rw [keyexpEdge, dif_pos (by omega)]
  simp only
  rw [if_neg (by omega)]

/-- The last KEYEXP edge (42_key_schedule.md R121). -/
theorem keyexpEdge_last {s : State} (h : s.ctr.toNat = 43) :
    keyexpEdge s = .next { s with W := extendStore s.W s.ctr.toNat (by omega), keyValid := true, ctr := 0,
                                  phase := .idle } := by
  rw [keyexpEdge, dif_pos (by omega)]
  simp only
  rw [if_pos h]

/-- A KEYEXP edge that answers a next state is one of these two. -/
theorem keyexpEdge_cases {s t : State} (h : keyexpEdge s = .next t) :
    ∃ hc : 4 ≤ s.ctr.toNat ∧ s.ctr.toNat < 44,
      (s.ctr.toNat < 43 ∧ t = { s with W := extendStore s.W s.ctr.toNat hc, ctr := s.ctr + 1 }) ∨
      (s.ctr.toNat = 43 ∧ t = { s with W := extendStore s.W s.ctr.toNat hc, keyValid := true, ctr := 0,
                                       phase := .idle }) := by
  by_cases hc : 4 ≤ s.ctr.toNat ∧ s.ctr.toNat < 44
  · refine ⟨hc, ?_⟩
    by_cases h43 : s.ctr.toNat = 43
    · rw [keyexpEdge_last h43] at h
      exact .inr ⟨h43, by cases h; rfl⟩
    · rw [keyexpEdge_of_lt (by omega)] at h
      exact .inl ⟨by omega, by cases h; rfl⟩
  · rw [keyexpEdge, dif_neg hc] at h
    cases h

/-- The ENC edge before the last (43_round_pipeline.md R147). -/
theorem encEdge_of_lt {s : State} (h : 1 ≤ s.ctr.toNat ∧ s.ctr.toNat < 10) :
    encEdge s = .next { s with S := fullRound s.W s.S ⟨s.ctr.toNat, by omega⟩, ctr := s.ctr + 1 } := by
  rw [encEdge, dif_pos (by omega), if_pos h.2]

/-- The last ENC edge (43_round_pipeline.md R147, R148). -/
theorem encEdge_last {s : State} (h : s.ctr.toNat = 10) :
    encEdge s = .next (completeBlock (finalRound s.W s.S) { s with S := finalRound s.W s.S }) := by
  rw [encEdge, dif_pos (by omega), if_neg (by omega)]

/-- An ENC edge that answers a next state is one of these two. -/
theorem encEdge_cases {s t : State} (h : encEdge s = .next t) :
    (∃ hc : 1 ≤ s.ctr.toNat ∧ s.ctr.toNat < 10,
      t = { s with S := fullRound s.W s.S ⟨s.ctr.toNat, by omega⟩, ctr := s.ctr + 1 }) ∨
    (s.ctr.toNat = 10 ∧ t = completeBlock (finalRound s.W s.S) { s with S := finalRound s.W s.S }) := by
  by_cases hc : 1 ≤ s.ctr.toNat ∧ s.ctr.toNat ≤ 10
  · by_cases h10 : s.ctr.toNat < 10
    · rw [encEdge_of_lt ⟨hc.1, h10⟩] at h
      exact .inl ⟨⟨hc.1, h10⟩, by cases h; rfl⟩
    · have h10' : s.ctr.toNat = 10 := by omega
      rw [encEdge_last h10'] at h
      exact .inr ⟨h10', by cases h; rfl⟩
  · rw [encEdge, dif_neg hc] at h
    cases h

/-! ### The edge and the step -/

/-- What an edge that answers a next state did (10_state.md R38): reset, nothing, an accepting edge, a
KEYEXP edge or an ENC edge. -/
theorem edge_cases {s u : State} (h : edge s = .next u) :
    (s.pins.rst = true ∧ u = resetRegisters s) ∨
    (s.pins.rst = false ∧ s.phase = .idle ∧ s.pins.cmdValid = false ∧ u = s) ∨
    (s.pins.rst = false ∧ s.phase = .idle ∧ s.pins.cmdValid = true ∧
      exec (decode s.pins.command) s = .next u) ∨
    (s.pins.rst = false ∧ s.phase = .keyexp ∧ keyexpEdge s = .next u) ∨
    (s.pins.rst = false ∧ s.phase = .enc ∧ encEdge s = .next u) := by
  unfold edge at h
  cases hr : s.pins.rst with
  | true =>
    rw [hr, if_pos rfl] at h
    cases h
    exact .inl ⟨rfl, rfl⟩
  | false =>
    rw [hr, if_neg Bool.false_ne_true] at h
    cases hp : s.phase with
    | idle =>
      rw [hp] at h
      cases hv : s.pins.cmdValid with
      | true =>
        simp only [hv, if_true] at h
        exact .inr (.inr (.inl ⟨rfl, rfl, rfl, h⟩))
      | false =>
        simp only [hv, Bool.false_eq_true, if_false] at h
        cases h
        exact .inr (.inl ⟨rfl, rfl, rfl, rfl⟩)
    | keyexp =>
      rw [hp] at h
      exact .inr (.inr (.inr (.inl ⟨rfl, rfl, h⟩)))
    | enc =>
      rw [hp] at h
      exact .inr (.inr (.inr (.inr ⟨rfl, rfl, h⟩)))

/-- A step that answers a next state is an edge, then the host's move and the record. -/
theorem step_next_iff {s t : State} : step s = .next t ↔ ∃ u, edge s = .next u ∧ t = record s u := by
  unfold step
  cases h : edge s with
  | next u =>
    constructor
    · intro ht
      cases ht
      exact ⟨u, rfl, rfl⟩
    · rintro ⟨v, hv, rfl⟩
      cases hv
      rfl
  | fault f => simp [afterEdge]
  | refused r => simp [afterEdge]

theorem step_of_edge {s u : State} (h : edge s = .next u) : step s = .next (record s u) :=
  step_next_iff.mpr ⟨u, h, rfl⟩

theorem edge_of_rst {s : State} (h : s.pins.rst = true) : edge s = .next (resetRegisters s) := by
  rw [edge, h, if_pos rfl]

theorem edge_of_accept {s : State} (hr : s.pins.rst = false) (hv : s.pins.cmdValid = true)
    (hp : s.phase = .idle) : edge s = exec (decode s.pins.command) s := by
  simp only [edge, hr, hp, hv, Bool.false_eq_true, if_false, if_true]

theorem edge_of_quiet {s : State} (hr : s.pins.rst = false) (hv : s.pins.cmdValid = false)
    (hp : s.phase = .idle) : edge s = .next s := by
  simp only [edge, hr, hp, hv, Bool.false_eq_true, if_false]

theorem edge_of_keyexp {s : State} (hr : s.pins.rst = false) (hp : s.phase = .keyexp) :
    edge s = keyexpEdge s := by
  simp only [edge, hr, hp, Bool.false_eq_true, if_false]

theorem edge_of_enc {s : State} (hr : s.pins.rst = false) (hp : s.phase = .enc) :
    edge s = encEdge s := by
  simp only [edge, hr, hp, Bool.false_eq_true, if_false]

end Sys2Proof.Machine
end

