-- ==== Sys2Proof/Laws/PerInstr.lean ====
section
/-! SUPPORT. What holds of every command as a piece of encoding, one lemma per constructor. -/

namespace Sys2Proof.Laws.EncodesItsRow

/-- The encoding of a command is of its own row of the opcode table, and the row is in the table
(30_encoding.md R83). -/
def Statement (i : Instr) : Prop := i.row.covers (encode i).cmd = true ∧ i.row ∈ opcodeTable

theorem loadKey (len : BitVec 4) (keyIn dataIn : BitVec 128) :
    Statement (.loadKey len keyIn dataIn) :=
  ⟨by simp only [encode, Instr.op, Instr.len, Instr.row]; revert len; decide,
    by simp only [Instr.row]; decide⟩

theorem encrypt (len : BitVec 4) (keyIn dataIn : BitVec 128) :
    Statement (.encrypt len keyIn dataIn) :=
  ⟨by simp only [encode, Instr.op, Instr.len, Instr.row]; revert len; decide,
    by simp only [Instr.row]; decide⟩

theorem encryptPad (len : BitVec 4) (keyIn dataIn : BitVec 128) :
    Statement (.encryptPad len keyIn dataIn) :=
  ⟨by simp only [encode, Instr.op, Instr.len, Instr.row]; revert len; decide,
    by simp only [Instr.row]; decide⟩

theorem rsvd (len : BitVec 4) (keyIn dataIn : BitVec 128) :
    Statement (.rsvd len keyIn dataIn) :=
  ⟨by simp only [encode, Instr.op, Instr.len, Instr.row]; revert len; decide,
    by simp only [Instr.row]; decide⟩

end Sys2Proof.Laws.EncodesItsRow
end

