-- ==== Sys2Proof/Laws/Safety.lean ====
section
/-! SUPPORT. Runs cut into steps, and plans without a reset. -/

namespace Sys2Proof.Machine

@[simp] theorem runFor_zero (s : State) : runFor 0 s = .next s := rfl

/-- A run's first step, when it answers a next state. -/
theorem runFor_succ {s t : State} (h : step s = .next t) (k : Nat) : runFor (k + 1) s = runFor k t := by
  have h' : Sys2Proof.core.step s = .next t := h
  simp only [runFor, Host.Core.run, h']
  rfl

/-- A run in two parts. -/
theorem runFor_add {s t : State} {m : Nat} (h : runFor m s = .next t) (k : Nat) :
    runFor (m + k) s = runFor k t := by
  induction m generalizing s with
  | zero => cases h; rw [Nat.zero_add]
  | succ m ih =>
    cases hs : step s with
    | next u =>
      rw [runFor_succ hs] at h
      rw [Nat.add_right_comm, runFor_succ hs, ih h]
    | fault f => simp [runFor, Host.Core.run, Sys2Proof.core, hs] at h
    | refused r => simp [runFor, Host.Core.run, Sys2Proof.core, hs] at h

theorem noReset_cons {a : HostAction} {rest : List HostAction} :
    NoReset (a :: rest) ↔ assertsNoReset a = true ∧ NoReset rest := by simp [NoReset]

/-- A plan without a reset drives no reset at the next edge, and is one after it too. -/
theorem NoReset.present {plan : List HostAction} (h : NoReset plan) (ready : Bool) :
    (Machine.present ready plan).1.rst = false ∧ NoReset (Machine.present ready plan).2 := by
  induction plan with
  | nil => exact ⟨rfl, h⟩
  | cons a rest ih =>
    obtain ⟨ha, hrest⟩ := noReset_cons.mp h
    cases a with
    | drive p => exact ⟨by simpa [assertsNoReset] using ha, hrest⟩
    | offer c => cases ready with
      | true => exact ⟨rfl, hrest⟩
      | false => exact ⟨rfl, h⟩
    | waitReady => cases ready with
      | true => exact ih hrest
      | false => exact ⟨rfl, h⟩
    | idle n => cases n with
      | zero => exact ih hrest
      | succ n => exact ⟨rfl, noReset_cons.mpr ⟨rfl, hrest⟩⟩
    | reset => cases ha

/-- A used-up plan in IDLE: the run is over. -/
theorem runOver_of_nil {s : State} (hp : s.phase = .idle) (h : s.script = []) : s.RunOver :=
  ⟨hp, by simp [h]⟩

/-- After the end of a run an edge without reset changes no register, and the run stays over
(70_reset_and_hazards.md R222; 60_exceptions.md R204). -/
theorem State.RunOver.step {s : State} (h : s.RunOver) (hr : s.pins.rst = false) :
    Machine.step s = .next { s with script := s.planAfter } ∧
      ({ s with script := s.planAfter } : State).RunOver := by
  obtain ⟨hv, hn⟩ := present_of_no_offer h.2 (decide (s.phase = .idle))
  refine ⟨?_, h.1, hn⟩
  have ha : s.accepts = false := by rw [accepts_of_idle hr h.1]; exact hv
  have hc : completes s s = false := completes_of_not_enc (by rw [h.1]; decide)
  rw [step_of_edge (edge_of_quiet hr hv h.1), record_quiet hr ha hc]

/-- A run has one end. -/
theorem RunEndsAt.unique {s t u : State} {n m : Nat} (h : RunEndsAt s n t) (k : RunEndsAt s m u) :
    n = m ∧ t = u := by
  obtain hlt | rfl | hgt := Nat.lt_trichotomy n m
  · exact absurd h.isOver (k.first n hlt t h.reached)
  · exact ⟨rfl, by simpa using h.reached.symm.trans k.reached⟩
  · exact absurd k.isOver (h.first m hgt u k.reached)

end Sys2Proof.Machine
end

