-- ==== Sys2Proof/Tests/Slice0.lean ====
section
/-! SUPPORT. Tests against the spec's own worked examples and tables (95_test_vectors.md), the smoke test
of WellFormed, and for every statement with hypotheses a witness that meets them. Each expected value is
the spec's; the comment names where it stands. -/

open Sys2Proof Sys2Proof.Machine

namespace Sys2Proof.Tests

/-! ### Helpers -/

/-- The key of 95_test_vectors.md table K2. -/
def keyK2 : Block := bytesOf 0x2b7e151628aed2a6abf7158809cf4f3c

/-- The engine in IDLE with the key of table K2 loaded. -/
def keyed : State := { State.reset with W := expand keyK2, keyValid := true }

/-- The engine in ENC before round `r`, with the key of table K2 and the state matrix `X`. -/
def encrypting (r : BitVec 6) (X : BitVec 128) : State :=
  { keyed with phase := .enc, ctr := r, S := bytesOf X }

/-- The engine in KEYEXP right after it took the key of table K2 in the reset state. -/
def expanding : State :=
  { State.reset with phase := .keyexp, ctr := 4, W := storeKey keyK2 State.reset.W }

/-- A state with a plan. -/
def withPlan (s : State) (plan : List HostAction) : State := { s with script := plan }

/-- What is read of a next state; nothing of a fault or a refusal. -/
def after {α : Type} (o : Host.Outcome State Fault Refusal) (f : State → α) : Option α :=
  match o with
  | .next t => some (f t)
  | .fault _ => none
  | .refused _ => none

/-! ### WellFormed: an ill-formed term for each check -/

theorem test_wf_command_word_too_wide : commandWordWellFormed 64 = false := by decide
theorem test_wf_short_key : (AsmLine.loadKey [1, 2, 3]).wellFormed = false := by decide
theorem test_wf_long_block : (AsmLine.enc (List.replicate 17 0)).wellFormed = false := by decide
theorem test_wf_encpad_len : (AsmLine.encPad 16 (List.replicate 16 0)).wellFormed = false := by decide
theorem test_wf_encpad_chunk : (AsmLine.encPad 3 [1, 2]).wellFormed = false := by decide
theorem test_wf_rsvd_len : (AsmLine.rsvd 16).wellFormed = false := by decide
theorem test_wf_enclast_chunk : (AsmLine.encLast (List.replicate 16 0)).wellFormed = false := by decide
theorem test_wf_refused_program : assemble [.reset, .rsvd 16] = none := by decide

/-! ### Decode: words written out from 30_encoding.md R81, R83, R87 and 95_test_vectors.md §2.7 -/

theorem test_decode_load_key : decode ⟨0b000000, 7, 9⟩ = .loadKey 0 7 9 := by decide
theorem test_decode_load_key_len_ignored : decode ⟨0x3C, 7, 9⟩ = .loadKey 15 7 9 := by decide
theorem test_decode_encrypt : decode ⟨0b000001, 7, 9⟩ = .encrypt 0 7 9 := by decide
theorem test_decode_encrypt_len_ignored : decode ⟨0x3D, 7, 9⟩ = .encrypt 15 7 9 := by decide
theorem test_decode_encrypt_pad_3 : decode ⟨0x0E, 7, 9⟩ = .encryptPad 3 7 9 := by decide
theorem test_decode_encrypt_pad_15 : decode ⟨0x3E, 7, 9⟩ = .encryptPad 15 7 9 := by decide
theorem test_decode_rsvd_5 : decode ⟨0x17, 7, 9⟩ = .rsvd 5 7 9 := by decide
theorem test_decode_rsvd_15 : decode ⟨0x3F, 7, 9⟩ = .rsvd 15 7 9 := by decide
theorem test_encode_encrypt_pad_5 : (encode (.encryptPad 5 0 0)).cmd = 0x16 := by decide
theorem test_table_word_too_wide : decodeTableWord 8 0x40 = none := by decide

/-! ### The assembly language (30_encoding.md R87; 95_test_vectors.md P3, P6) -/

theorem test_parse_encpad : parseLine "ENCPAD 3, aaBbcc".toList = some (.encPad 3 [0xaa, 0xbb, 0xcc]) := by
  decide
theorem test_parse_encpad_empty : parseLine "ENCPAD 0,".toList = some (.encPad 0 []) := by decide
theorem test_parse_enclast_hello :
    (parseLine "ENCLAST 68656c6c6f".toList).map expandLine =
      some [.offer ⟨0x16, 0, 0x68656c6c6f0000000000000000000000⟩] := by decide +kernel
theorem test_parse_unknown_line : parseLine "DEC 00".toList = none := by decide

/-! ### Functions, from 95_test_vectors.md §2.1 to §2.6 -/

theorem test_gmul_vectors :
    gmul 0x57 0x83 = 0xc1 ∧ gmul 0x53 0xca = 0x01 ∧ gmul 0x80 0x80 = 0x9a ∧ gmul 0x09 0x0d = 0x65 := by decide
theorem test_sub_bytes_T3 : subBytes (bytesOf 0xffffffffffffffffffffffffffffffff) =
    bytesOf 0x16161616161616161616161616161616 := by decide +kernel
theorem test_shift_rows_T5 : shiftRows (bytesOf 0x0102030405060708090a0b0c0d0e0f10) =
    bytesOf 0x01060b10050a0f04090e03080d02070c := by decide +kernel
theorem test_mix_columns_T10 : mixColumns (bytesOf 0x0102030405060708090a0b0c0d0e0f10) =
    bytesOf 0x0304090a0f08151e0b0c010217102d36 := by decide +kernel
theorem test_pad_3 : pad (bytesOf 0xaabbcceeeeeeeeeeeeeeeeeeeeeeeeee) 3 =
    bytesOf 0xaabbcc0d0d0d0d0d0d0d0d0d0d0d0d0d := by decide +kernel
theorem test_expand_ones_round_key_10 : roundKey (expand (bytesOf 0xffffffffffffffffffffffffffffffff)) 10 =
    bytesOf 0xd60a3588e472f07b82d2d7858cd7c326 := by decide +kernel

/-! ### One step of each command (95_test_vectors.md §2.7, §2.8) -/

theorem test_load_key_status_and_word_3 :
    after (step (withPlan keyed [.offer ⟨0x3C, 0x000102030405060708090a0b0c0d0e0f, 5⟩]))
      (fun t => (t.status false, t.W[3])) = some (0x01, ⟨0x0c, 0x0d, 0x0e, 0x0f⟩) := by decide +kernel
theorem test_load_key_keeps_word_4 :
    after (exec (.loadKey 0 0 0) keyed) (fun t => t.W[4]) = some ⟨0xa0, 0xfa, 0xfe, 0x17⟩ := by decide +kernel
theorem test_encrypt_status_and_state :
    after (step (withPlan keyed [.offer ⟨0x01, 0, 0x3243f6a8885a308d313198a2e0370734⟩]))
      (fun t => (t.status false, wordOf t.S)) = some (0x03, 0x193de3bea0f4e22b9ac68d2ae9f84808) := by
  decide +kernel
theorem test_encrypt_no_key :
    after (step (State.reset.withFetchWord 8 0x01)) (fun t => (t.status false, t.phase)) =
      some (0x68, .idle) := by decide
theorem test_encrypt_pad_no_key :
    after (step (State.reset.withFetchWord 8 0x0E)) (fun t => t.status false) = some 0x68 := by decide
theorem test_encrypt_pad_zero_key :
    after (exec (.encryptPad 1 0 0x41eeeeeeeeeeeeeeeeeeeeeeeeeeeeee) { State.reset with keyValid := true })
      (fun t => (t.status false, wordOf t.S)) = some (0x03, 0x410f0f0f0f0f0f0f0f0f0f0f0f0f0f0f) := by
  decide +kernel
theorem test_rsvd_keeps_the_key :
    after (step (withPlan keyed [.offer ⟨0x17, 1, 2⟩])) (fun t => t.status false) = some 0x5A := by
  decide +kernel
theorem test_rsvd_from_reset :
    after (step (State.reset.withFetchWord 8 0x3F))
      (fun t => (t.observation.statuses, t.observation.rejections)) = some ([0x58], [⟨0x3F, 1⟩]) := by decide

/-! ### One edge of each other kind (95_test_vectors.md §2.5 table T3, §2.8) -/

theorem test_keyexp_edge_word_4 :
    after (step expanding) (fun t => (t.W[4], t.ctr, t.keyValid)) =
      some (⟨0xa0, 0xfa, 0xfe, 0x17⟩, 5, false) := by decide +kernel
theorem test_enc_edge_round_5 :
    after (step (encrypting 5 0xe0927fe8c86363c0d9b1355085b8be01)) (fun t => (wordOf t.S, t.ctr)) =
      some (0xf1006f55c1924cef7cc88b325db5d50c, 6) := by decide +kernel
theorem test_enc_edge_last :
    after (step (encrypting 10 0xeb40f21e592e38848ba113e71bc342d2))
      (fun t => (t.status false, t.doutLog.map wordOf)) = some (0x46, [0x3925841d02dc09fbdc118597196a0b32]) := by
  decide +kernel
theorem test_reset_edge_beats_an_offer :
    after (step (withPlan keyed [.drive ⟨true, true, 0x00, 1, 2, 0⟩])) (fun t => (t.status false, t.W)) =
      some (0x40, State.reset.W) := by decide +kernel
theorem test_busy_edge_keeps_the_offer :
    after (step (withPlan expanding [.offer ⟨0x03, 0, 0⟩])) (fun t => t.script) =
      some [.offer ⟨0x03, 0, 0⟩] := by decide +kernel

/-! ### Witnesses: each meets all the hypotheses of the statement it names, one for each clause -/

theorem wit_IgnoredFieldsAreDontCare :
    (∀ b : Fin 16, b.val < (3 : BitVec 4).toNat →
      (bytesOf 0xaabbcc00000000000000000000000000).byte b = (bytesOf 0xaabbccffffffffffffffffffffffffff).byte b) ∧
    (0xaabbcc00000000000000000000000000 : BitVec 128) ≠ 0xaabbccffffffffffffffffffffffffff := by decide +kernel

theorem wit_DebugPortReadsTheKeyStore :
    (43 : BitVec 6).toNat ≤ 43 ∧ 43 < (44 : BitVec 6).toNat ∧ 43 < (63 : BitVec 6).toNat ∧
      (3 : BitVec 6).toNat = (3 : Fin 4).val := by decide

theorem wit_PadRule :
    (∀ k : Fin 16, k.val < (15 : BitVec 4).toNat →
      (bytesOf 0x0102030405060708090a0b0c0d0e0f00).byte k = (bytesOf 0x0102030405060708090a0b0c0d0e0fee).byte k) ∧
    (bytesOf 0x41000000000000000000000000000000).byte 0 = 0x41 := by decide +kernel

theorem wit_SboxIsAffineOfInverse : IsInv 0x00 0x00 ∧ IsInv 0x53 0xca := by
  unfold IsInv; decide

theorem wit_RconAndLogTables : (0x01 : Byte) ≠ 0 ∧ (0xff : Byte) ≠ 0 := by decide

theorem wit_GmulAlgebra : gmul 0x00 0x7f = 0 ∧ gmul 0x7f 0x00 = 0 := by decide

theorem wit_LogSumReduction : (0x53 : Byte) ≠ 0 ∧ (0xca : Byte) ≠ 0 := by decide

theorem wit_MixColumnsRule :
    (bytesOf 0xdb135345f20a225c01010101c6c6c6c6).row 0 = (bytesOf 0xdb135345000000000000000000000000).row 0 ∧
    (bytesOf 0xdb135345f20a225c01010101c6c6c6c6).row 3 = ⟨0xc6, 0xc6, 0xc6, 0xc6⟩ := by decide +kernel

theorem wit_AddRoundKeyRule : roundKey State.reset.W 10 = Block.zero := by decide +kernel

theorem wit_NextWordRecurrence :
    (4 ≤ (4 : Fin 44).val ∧ (4 : Fin 44).val % 4 = 0) ∧ (4 ≤ (40 : Fin 44).val ∧ (40 : Fin 44).val % 4 = 0) ∧
      (43 : Fin 44).val % 4 ≠ 0 := by decide

theorem wit_LoadKeyAcceptingEdge :
    exec (.loadKey 0 0 0) keyed = .next (startExpansion (bytesOf 0) (clearOutcome keyed)) := rfl

theorem wit_EncryptAcceptingEdge :
    keyed.keyValid = true ∧ State.reset.keyValid = false ∧ roundKey State.reset.W 0 = Block.zero := by
  decide +kernel

theorem wit_EncryptPadAcceptingEdge : keyed.keyValid = true ∧ State.reset.keyValid = false := by decide

theorem wit_ReservedCommandRaisesIllegalOp :
    exec (.rsvd 5 0 0) State.reset = .next (raiseError codeIllegalOp (clearOutcome State.reset)) := rfl

/-- A state that meets the invariant while a key expands. -/
theorem expanding_inv : expanding.Inv where
  sequencer := ⟨by decide, by decide⟩
  errAgrees := .inl ⟨rfl, rfl⟩
  expanding _ := ⟨rfl, rfl, rfl⟩
  encrypting h := by cases h
  keyed h := by cases h
  partlyKeyed _ := followsRecurrence_four _
  output h := by cases h
  rejections _ h := by cases h

theorem wit_NoKeyRejectsEncryption :
    State.reset.keyValid = false ∧ expanding.Inv ∧ expanding.phase = .keyexp := ⟨rfl, expanding_inv, rfl⟩

theorem wit_RejectionPriority :
    (withPlan keyed [.reset]).pins.rst = true ∧ expanding.phase ≠ .idle ∧
      after (exec (.rsvd 0 0 0) keyed) (fun t => t.err) = some true ∧
      after (exec (.loadKey 0 0 0) keyed) (fun t => t.err) = some false := by decide +kernel

theorem wit_StepRunsTheDecodedCommand :
    (withPlan keyed [.offer (encode (.rsvd 5 1 2))]).pins.rst = false ∧
      (withPlan keyed [.offer (encode (.rsvd 5 1 2))]).pins.cmdValid = true ∧
      (withPlan keyed [.offer (encode (.rsvd 5 1 2))]).phase = .idle ∧
      (withPlan keyed [.offer (encode (.rsvd 5 1 2))]).script = .offer (encode (.rsvd 5 1 2)) :: [] := by
  decide +kernel

theorem wit_ResetEdge : (withPlan (encrypting 4 0) [.reset]).pins.rst = true := by decide

theorem wit_ResetValues : quietPins.rst = false := by decide

theorem wit_HeldResetStaysReset :
    (withPlan keyed [.reset, .reset]).pins.rst = true ∧
      after (step (withPlan keyed [.reset, .reset])) (fun t => t.pins.rst) = some true ∧ resetPins.rst = true ∧
      after (step (withPlan keyed [.reset, .offer ⟨0x00, 0, 0⟩]))
        (fun t => (t.pins.rst, t.pins.cmdValid)) = some (false, true) := by
  decide +kernel

theorem wit_IdleChangesNothing :
    (withPlan keyed [.idle 3]).phase = .idle ∧ (withPlan keyed [.idle 3]).pins.rst = false ∧
      (withPlan keyed [.idle 3]).pins.cmdValid = false := by decide

theorem wit_BusyEdgeIgnoresTheOffer :
    (encrypting 10 0).phase ≠ .idle ∧ (encrypting 10 0).pins.rst = false ∧
      (withPlan (encrypting 10 0) [.offer ⟨0x03, 0, 0⟩]).pins.rst = false ∧
      after (edge (encrypting 10 0)) (fun t => t.phase) = some .idle ∧
      (encrypting 10 0).cmdReady false = false ∧ keyed.cmdReady true = false ∧
      (withPlan (encrypting 10 0) [.offer ⟨0x03, 0, 0⟩]).script = .offer ⟨0x03, 0, 0⟩ :: [] := by decide +kernel

theorem wit_KeyExpansionEdge :
    (4 ≤ expanding.ctr.toNat ∧ expanding.ctr.toNat ≤ 43) ∧ expanding.phase = .keyexp ∧
      expanding.pins.rst = false ∧
      (4 ≤ ({ expanding with ctr := 43 } : State).ctr.toNat ∧ ({ expanding with ctr := 43 } : State).ctr.toNat = 43) ∧
      ({ expanding with ctr := 42 } : State).ctr.toNat < 43 := by decide

theorem wit_EncryptionEdge :
    (encrypting 9 0).phase = .enc ∧ (encrypting 9 0).pins.rst = false ∧
      (encrypting 1 0).ctr.toNat = (1 : Fin 11).val ∧ (encrypting 9 0).ctr.toNat = (9 : Fin 11).val ∧
      (encrypting 10 0).ctr.toNat = 10 := by decide

theorem wit_SequencerTransitions :
    expanding.SequencerLegal ∧ after (step expanding) (fun t => (t.phase, t.ctr)) = some (.keyexp, 5) :=
  ⟨⟨by decide, by decide⟩, by decide +kernel⟩

theorem wit_UnreachablePairsStop :
    ({ expanding with ctr := 3 } : State).pins.rst = false ∧ ({ expanding with ctr := 3 } : State).ctr.toNat < 4 ∧
      43 < ({ expanding with ctr := 44 } : State).ctr.toNat ∧ (encrypting 0 0).ctr.toNat < 1 ∧
      10 < (encrypting 11 0).ctr.toNat ∧ (encrypting 11 0).pins.rst = false := by decide

theorem wit_OnlyLoadKeyAndResetWriteTheKeyStore :
    after (step (withPlan keyed [.reset])) (fun t => decide (t.W ≠ keyed.W)) = some true ∧
      after (step expanding) (fun t => decide (t.W ≠ expanding.W)) = some true ∧
      after (step (withPlan keyed [.offer ⟨0x00, 0, 0⟩])) (fun t => decide (t.W ≠ keyed.W)) = some true := by
  decide +kernel

/-- A next state for each branch of DoutIsWrittenAtCompletionOnly, OutValidWindow,
ErrorRecordsTheLastCommand and KeyValidWindow, whose one hypothesis is `step s = .next t`. -/
theorem wit_steps_of_every_kind :
    (∃ t, step (withPlan keyed [.reset]) = .next t) ∧ (∃ t, step (withPlan keyed [.idle 1]) = .next t) ∧
      (∃ t, step (withPlan keyed [.offer ⟨0x03, 0, 0⟩]) = .next t) ∧ (∃ t, step expanding = .next t) ∧
      ∃ t, step (encrypting 10 0) = .next t :=
  ⟨⟨_, step_of_edge (edge_of_rst rfl)⟩, ⟨_, step_of_edge (edge_of_quiet rfl rfl rfl)⟩,
    ⟨_, step_of_edge (edge_of_accept rfl rfl rfl)⟩,
    ⟨_, step_of_edge ((edge_of_keyexp rfl rfl).trans (keyexpEdge_of_lt ⟨by decide, by decide⟩))⟩,
    ⟨_, step_of_edge ((edge_of_enc rfl rfl).trans (encEdge_last rfl))⟩⟩

theorem wit_ControlIgnoresKeyAndData :
    SameControl (withPlan keyed [.offer ⟨0x01, 1, 2⟩]) (withPlan keyed [.offer ⟨0x01, 3, 4⟩]) ∧
      ∃ t, step (withPlan keyed [.offer ⟨0x01, 1, 2⟩]) = .next t :=
  ⟨⟨rfl, rfl, rfl, rfl, rfl, rfl, rfl⟩, ⟨_, step_of_edge (edge_of_accept rfl rfl rfl)⟩⟩

theorem wit_RejectionsAreRemembered :
    (withPlan State.reset [.offer ⟨0x03, 0, 0⟩]).pins.rst = false ∧
      (withPlan State.reset [.offer ⟨0x03, 0, 0⟩]).accepts = true ∧
      rejectionCode (decode ⟨0x03, 0, 0⟩) false ≠ 0 ∧ rejectionCode (decode ⟨0x00, 0, 0⟩) false = 0 := by decide

theorem wit_StepKeepsInv : expanding.Inv ∧ ∃ t, step expanding = .next t :=
  ⟨expanding_inv, ⟨_, step_of_edge ((edge_of_keyexp rfl rfl).trans (keyexpEdge_of_lt ⟨by decide, by decide⟩))⟩⟩

theorem wit_InvStepsOn : expanding.Inv := expanding_inv

/-- The host may do anything but reset while a key expands or a block is in flight. -/
theorem wit_LoadKeyRun :
    (withPlan keyed [.offer (encode (.loadKey 0 1 2)), .drive (offeringPins ⟨0x03, 0, 0⟩), .idle 3]).phase = .idle ∧
      (withPlan keyed [.offer (encode (.loadKey 0 1 2)), .drive (offeringPins ⟨0x03, 0, 0⟩), .idle 3]).script =
        .offer (encode (.loadKey 0 1 2)) :: [.drive (offeringPins ⟨0x03, 0, 0⟩), .idle 3] ∧
      NoReset [.drive (offeringPins ⟨0x03, 0, 0⟩), .idle 3] ∧ 0 ≤ 40 ∧ 40 ≤ 40 := by
  refine ⟨rfl, rfl, ?_, by decide, by decide⟩
  unfold NoReset
  decide

theorem wit_EncryptRun :
    (withPlan keyed [.offer (encode (.encryptPad 3 0 7)), .waitReady]).phase = .idle ∧
      (withPlan keyed [.offer (encode (.encryptPad 3 0 7)), .waitReady]).keyValid = true ∧
      (withPlan keyed [.offer (encode (.encryptPad 3 0 7)), .waitReady]).script =
        .offer (encode (.encryptPad 3 0 7)) :: [.waitReady] ∧
      NoReset [.waitReady] ∧
      (∃ len k d, (Instr.encryptPad 3 0 7) = .encryptPad len k d ∧ pad (bytesOf 7) 3 = pad (bytesOf d) len) ∧
      (∃ len k d, (Instr.encrypt 3 0 7) = .encrypt len k d ∧ bytesOf 7 = bytesOf d) ∧ 0 ≤ 10 ∧ 10 ≤ 10 := by
  refine ⟨rfl, rfl, rfl, ?_, ⟨3, 0, 7, rfl, rfl⟩, ⟨3, 0, 7, rfl, rfl⟩, by decide, by decide⟩
  unfold NoReset
  decide

theorem wit_LoadKeyThenEncryptGivesAes :
    (withPlan keyed [.offer (encode (.loadKey 0 1 0)), .offer (encode (.encrypt 0 0 2))]).phase = .idle ∧
      (withPlan keyed [.offer (encode (.loadKey 0 1 0)), .offer (encode (.encrypt 0 0 2))]).script =
        [.offer (encode (.loadKey 0 1 0)), .offer (encode (.encrypt 0 0 2))] := ⟨rfl, rfl⟩

/-- The engine with a key, about to encrypt a stream of `n` zero bytes. -/
def streaming (n : Nat) : State := withPlan keyed (expandLine (.encStream (List.replicate n 0)))

/-- Every length meets the hypotheses: the empty stream, one byte short of a block, a multiple of 16, one
byte more. -/
theorem wit_StreamRun :
    ∀ n ∈ [0, 15, 16, 17, 32], (streaming n).phase = .idle ∧ (streaming n).keyValid = true ∧
      (streaming n).script = expandLine (.encStream (List.replicate n 0)) := fun _ _ => ⟨rfl, rfl, rfl⟩

/-- 44_block_driver.md R175: how many encrypting commands each of those lengths takes. -/
theorem test_stream_command_counts :
    [0, 15, 16, 17, 32].map (fun n => (streaming n).script.length) = [1, 1, 2, 2, 3] := by decide +kernel

/-- The empty list of commands meets the hypotheses too: `keyed` has it as its plan. -/
theorem wit_EveryFiniteRunEnds_none :
    keyed.phase = .idle ∧ keyed.script = [].map .offer ++ [] ∧ [].any offersCommand = false ∧ NoReset [] :=
  ⟨rfl, rfl, rfl, by simp [NoReset]⟩

theorem wit_EveryFiniteRunEnds :
    (withPlan keyed ([⟨0x00, 0, 0⟩, ⟨0x03, 0, 0⟩].map .offer ++ [.idle 3, .waitReady])).phase = .idle ∧
      (withPlan keyed ([⟨0x00, 0, 0⟩, ⟨0x03, 0, 0⟩].map .offer ++ [.idle 3, .waitReady])).script =
        [⟨0x00, 0, 0⟩, ⟨0x03, 0, 0⟩].map .offer ++ [.idle 3, .waitReady] ∧
      [.idle 3, .waitReady].any offersCommand = false ∧ NoReset [.idle 3, .waitReady] := by
  refine ⟨rfl, rfl, rfl, ?_⟩
  unfold NoReset
  decide

theorem wit_NothingHappensAfterTheEnd :
    (withPlan keyed [.waitReady, .idle 2, .drive quietPins]).RunOver ∧
      NoReset [.waitReady, .idle 2, .drive quietPins] ∧ keyed.RunOver ∧ keyed.script = [] ∧
      (withPlan keyed [.reset]).RunOver := by
  refine ⟨⟨rfl, rfl⟩, ?_, ⟨rfl, rfl⟩, rfl, ⟨rfl, rfl⟩⟩
  unfold NoReset
  decide

/-- A run ends at the edge that accepts its last, rejected command, with that command in the observation,
though the host still has a wait, idle edges and a reset to come (70_reset_and_hazards.md R222). -/
theorem test_run_ends_before_what_is_left :
    after (step (withPlan State.reset [.offer ⟨0x03, 0, 0⟩, .waitReady, .idle 2, .reset]))
      (fun t => (t.phase, t.script.any offersCommand, t.observation.statuses)) =
      some (.idle, false, [0x58]) := by decide

theorem wit_RejectedCommandTakesOneEdge :
    (withPlan keyed [.offer (encode (.rsvd 0 0 0))]).phase = .idle ∧
      rejectionCode (.rsvd 0 0 0) keyed.keyValid ≠ 0 ∧
      rejectionCode (.encrypt 0 0 0) State.reset.keyValid ≠ 0 ∧
      rejectionCode (.encryptPad 0 0 0) State.reset.keyValid ≠ 0 := by decide

theorem wit_CommandLinesAssemble :
    (AsmLine.loadKey (List.replicate 16 1)).wellFormed = true ∧ (AsmLine.enc (List.replicate 16 1)).wellFormed = true ∧
      (AsmLine.encPad 0 []).wellFormed = true ∧ (AsmLine.encPad 15 (List.replicate 15 1)).wellFormed = true ∧
      (AsmLine.rsvd 15).wellFormed = true := by decide

end Sys2Proof.Tests
end

section
/-! SUPPORT. What one step can do to the registers, as one inversion: the seven kinds of edge of
10_state.md R38, and what the accepting edge writes to each control register. -/

namespace Sys2Proof.Machine

/-! ### The accepting edge, register by register -/

/-- An accepting edge writes no ciphertext and clears `out_valid` (10_state.md R28, R29). -/
theorem exec_output {i : Instr} {s u : State} (h : exec i s = .next u) :
    u.dout = s.dout ∧ u.outValid = false := by
  obtain ⟨K, hK⟩ | ⟨-, P, hP⟩ | ⟨code, -, hc⟩ := exec_cases i s
  · rw [hK] at h; cases h; exact ⟨rfl, rfl⟩
  · rw [hP] at h; cases h; exact ⟨rfl, rfl⟩
  · rw [hc] at h; cases h; exact ⟨rfl, rfl⟩

/-- The sequencer after the accepting edge of an encrypting command (10_state.md R33). -/
theorem acceptBlock_sequencer (P : Block) (s : State) :
    ((acceptBlock P s).phase, (acceptBlock P s).ctr) = if s.keyValid then (.enc, 1) else (s.phase, s.ctr) := by
  cases hk : s.keyValid with
  | true => rw [acceptBlock_of_key P hk]; rfl
  | false => rw [acceptBlock_of_noKey P hk]; rfl

/-- The error registers after the accepting edge of an encrypting command (60_exceptions.md R193). -/
theorem acceptBlock_error (P : Block) (s : State) :
    ((acceptBlock P s).err, (acceptBlock P s).errCode) =
      if s.keyValid then (s.err, s.errCode) else (true, codeNoKey) := by
  cases hk : s.keyValid with
  | true => rw [acceptBlock_of_key P hk]; rfl
  | false => rw [acceptBlock_of_noKey P hk]; rfl

/-- After the common clear the error registers say whether the encrypting command was rejected. -/
theorem acceptBlock_clear_error (P : Block) (s : State) :
    ((acceptBlock P (clearOutcome s)).err, (acceptBlock P (clearOutcome s)).errCode) =
      (decide ((if s.keyValid then codeNone else codeNoKey) ≠ 0),
        if s.keyValid then codeNone else codeNoKey) := by
  rw [acceptBlock_error, clearOutcome_keyValid]
  cases s.keyValid with
  | true => rfl
  | false => rfl

/-- An accepting edge leaves in the error registers the code its command is rejected with
(10_state.md R30; 60_exceptions.md R196). -/
theorem exec_error {i : Instr} {s u : State} (h : exec i s = .next u) :
    (u.err, u.errCode) = (decide (rejectionCode i s.keyValid ≠ 0), rejectionCode i s.keyValid) := by
  cases i with
  | loadKey len k d => cases h; rfl
  | encrypt len k d => cases h; exact acceptBlock_clear_error (bytesOf d) s
  | encryptPad len k d => cases h; exact acceptBlock_clear_error (pad (bytesOf d) len) s
  | rsvd len k d => cases h; rfl

/-! ### The kinds of edge -/

/-- The registers go from `s` to those of the second state at the next edge: one constructor per branch
of 10_state.md R38, with the last KEYEXP and the last ENC edge apart. -/
inductive EdgeTaken (s : State) : State → Prop
  | reset (hr : s.pins.rst = true) : EdgeTaken s (resetRegisters s)
  | quiet (hr : s.pins.rst = false) (hp : s.phase = .idle) (hv : s.pins.cmdValid = false) : EdgeTaken s s
  | accept (hr : s.pins.rst = false) (hp : s.phase = .idle) (hv : s.pins.cmdValid = true) {u : State}
      (he : exec (decode s.pins.command) s = .next u) : EdgeTaken s u
  | expand (hr : s.pins.rst = false) (hp : s.phase = .keyexp) (hc : 4 ≤ s.ctr.toNat ∧ s.ctr.toNat < 44)
      (hne : s.ctr ≠ 43#6) :
      EdgeTaken s { s with W := extendStore s.W s.ctr.toNat hc, ctr := s.ctr + 1 }
  | expandLast (hr : s.pins.rst = false) (hp : s.phase = .keyexp)
      (hc : 4 ≤ s.ctr.toNat ∧ s.ctr.toNat < 44) (hlast : s.ctr = 43#6) :
      EdgeTaken s { s with W := extendStore s.W s.ctr.toNat hc, keyValid := true, ctr := 0, phase := .idle }
  | round (hr : s.pins.rst = false) (hp : s.phase = .enc) (hc : 1 ≤ s.ctr.toNat ∧ s.ctr.toNat < 10)
      (hne : s.ctr ≠ 10#6) :
      EdgeTaken s { s with S := fullRound s.W s.S ⟨s.ctr.toNat, by omega⟩, ctr := s.ctr + 1 }
  | roundLast (hr : s.pins.rst = false) (hp : s.phase = .enc) (hlast : s.ctr = 10#6) :
      EdgeTaken s (completeBlock (finalRound s.W s.S) { s with S := finalRound s.W s.S })

/-- An edge that answers a next state is of one of the seven kinds. -/
theorem edgeTaken_of_edge {s u : State} (h : edge s = .next u) : EdgeTaken s u := by
  obtain ⟨hr, rfl⟩ | ⟨hr, hp, hv, rfl⟩ | ⟨hr, hp, hv, he⟩ | ⟨hr, hp, he⟩ | ⟨hr, hp, he⟩ := edge_cases h
  · exact .reset hr
  · exact .quiet hr hp hv
  · exact .accept hr hp hv he
  · obtain ⟨hc, ⟨hlt, rfl⟩ | ⟨h43, rfl⟩⟩ := keyexpEdge_cases he
    · exact .expand hr hp hc (by bv_omega)
    · exact .expandLast hr hp hc (BitVec.eq_of_toNat_eq h43)
  · obtain ⟨hc, rfl⟩ | ⟨h10, rfl⟩ := encEdge_cases he
    · exact .round hr hp hc (by bv_omega)
    · exact .roundLast hr hp (BitVec.eq_of_toNat_eq h10)

/-- A step that answers a next state took one of the seven edges, then recorded it. -/
theorem step_cases {s t : State} (h : step s = .next t) : ∃ u, EdgeTaken s u ∧ t = record s u := by
  obtain ⟨u, hu, ht⟩ := step_next_iff.mp h
  exact ⟨u, edgeTaken_of_edge hu, ht⟩

end Sys2Proof.Machine
end

section
/-! PROOF. The transition table of (`phase`, `ctr`) (10_state.md R33). -/

namespace Sys2Proof.Machine

/-- In IDLE a legal counter is 0 (10_state.md R27). -/
theorem State.SequencerLegal.ctr_of_idle {s : State} (h : s.SequencerLegal) (hp : s.phase = .idle) :
    s.ctr = 0 := by
  unfold State.SequencerLegal at h
  rwa [hp] at h

/-- The accepting edge takes the sequencer where the table says. -/
theorem exec_sequencer {s u : State} (hr : s.pins.rst = false) (hp : s.phase = .idle)
    (hv : s.pins.cmdValid = true) (hc : s.ctr = 0) (h : exec (decode s.pins.command) s = .next u) :
    (u.phase, u.ctr) = nextSequencer s := by
  simp only [nextSequencer, hr, hp, hv, Bool.false_eq_true, if_false, if_true]
  cases hd : decode s.pins.command with
  | loadKey len k d => rw [hd] at h; cases h; rfl
  | encrypt len k d => rw [hd] at h; cases h; simp [acceptBlock_sequencer, hp, hc]
  | encryptPad len k d => rw [hd] at h; cases h; simp [acceptBlock_sequencer, hp, hc]
  | rsvd len k d => rw [hd] at h; cases h; simp [hp, hc]

/-- Every edge from a legal pair takes the sequencer where the table says. -/
theorem EdgeTaken.sequencer {s u : State} (h : EdgeTaken s u) (hs : s.SequencerLegal) :
    (u.phase, u.ctr) = nextSequencer s := by
  cases h with
  | reset hr => simp [nextSequencer, hr]
  | quiet hr hp hv => simp [nextSequencer, hr, hp, hv, hs.ctr_of_idle hp]
  | accept hr hp hv he => exact exec_sequencer hr hp hv (hs.ctr_of_idle hp) he
  | expand hr hp hc hne => simp [nextSequencer, hr, hp, hne]
  | expandLast hr hp hc hlast => simp [nextSequencer, hr, hp, hlast]
  | round hr hp hc hne => simp [nextSequencer, hr, hp, hne]
  | roundLast hr hp hlast => simp [nextSequencer, hr, hp, hlast]

/-- Settles O37, edge by edge. -/
theorem sequencerTransitions : Obligations.SequencerTransitions := by
  intro s t hs h
  obtain ⟨u, hu, rfl⟩ := step_cases h
  simpa only [record_phase, record_ctr] using hu.sequencer hs

end Sys2Proof.Machine
end

section
/-! PROOF. When `dout`, `out_valid`, `err` and `err_code` are written (10_state.md R28 to R30). -/

namespace Sys2Proof.Machine

/-! ### The data port -/

/-- Byte `j` of a word stands in bits `[31-8*j : 24-8*j]` of its value (20_memory.md R65). -/
theorem extractLsb'_wordBits (w : Word) (j : Fin 4) :
    (wordBits w).extractLsb' (24 - 8 * j.val) 8 = w.get j := by
  match j with
  | 0 => simp only [wordBits, BitVec.extractLsb'_append_eq_ite]; simp [Word.get]
  | 1 => simp only [wordBits, BitVec.extractLsb'_append_eq_ite]; simp [Word.get]
  | 2 => simp only [wordBits, BitVec.extractLsb'_append_eq_ite]; simp [Word.get]
  | 3 => simp only [wordBits, BitVec.extractLsb'_append_eq_ite]; simp [Word.get]

/-- Row `r` of a block stands in bits `[127-32*r : 96-32*r]` of its value: bits of the row's own value
are bits of the block's (20_memory.md R61). -/
theorem extractLsb'_wordOf_row (B : Block) (r : Fin 4) {start len : Nat} (h : start + len ≤ 32) :
    (wordOf B).extractLsb' (start + (96 - 32 * r.val)) len = (wordBits (B.row r)).extractLsb' start len := by
  unfold wordOf
  match r with
  | 0 =>
    rw [BitVec.extractLsb'_append_eq_of_le (by simp), BitVec.extractLsb'_append_eq_of_le (by simp),
      BitVec.extractLsb'_append_eq_of_le (by simp)]
    simp [Block.row]
  | 1 =>
    rw [BitVec.extractLsb'_append_eq_of_le (by simp), BitVec.extractLsb'_append_eq_of_le (by simp),
      BitVec.extractLsb'_append_eq_of_add_le (by simp; omega)]
    simp [Block.row]
  | 2 =>
    rw [BitVec.extractLsb'_append_eq_of_le (by simp), BitVec.extractLsb'_append_eq_of_add_le (by simp; omega)]
    simp [Block.row]
  | 3 =>
    rw [BitVec.extractLsb'_append_eq_of_add_le (by simp; omega)]
    simp [Block.row]

/-- Byte `k` of a block stands in bits `[127-8*k : 120-8*k]` of its value (20_memory.md R61). -/
theorem extractLsb'_wordOf (B : Block) (k : Fin 16) :
    (wordOf B).extractLsb' (120 - 8 * k.val) 8 = B.byte k := by
  have hk : 120 - 8 * k.val = (24 - 8 * (k.val % 4)) + (96 - 32 * (k.val / 4)) := by omega
  rw [hk, extractLsb'_wordOf_row B ⟨k.val / 4, by omega⟩ (by omega), Block.byte, Block.get]
  exact extractLsb'_wordBits _ ⟨k.val % 4, by omega⟩

/-! ### The registers -/

/-- `dout` after any edge (10_state.md R28). -/
theorem EdgeTaken.dout {s u : State} (h : EdgeTaken s u) :
    u.dout = if s.pins.rst then Block.zero
      else if s.phase = .enc ∧ s.ctr = 10 then finalRound s.W s.S else s.dout := by
  cases h with
  | reset hr => simp [hr]
  | quiet hr hp hv => simp [hr, hp]
  | accept hr hp hv he => simpa [hr, hp] using (exec_output he).1
  | expand hr hp hc hne => simp [hr, hp]
  | expandLast hr hp hc hlast => simp [hr, hp]
  | round hr hp hc hne => simp [hr, hne]
  | roundLast hr hp hlast => simp [hr, hp, hlast]

/-- `out_valid` after any edge (10_state.md R29). -/
theorem EdgeTaken.outValid {s u : State} (h : EdgeTaken s u) :
    u.outValid = if s.pins.rst then false
      else if s.accepts then false
      else if s.phase = .enc ∧ s.ctr = 10 then true else s.outValid := by
  cases h with
  | reset hr => simp [hr]
  | quiet hr hp hv => simp [hr, hp, hv, accepts_of_idle]
  | accept hr hp hv he => simpa [hr, hp, hv, accepts_of_idle] using (exec_output he).2
  | expand hr hp hc hne => simp [hr, hp, accepts_of_busy]
  | expandLast hr hp hc hlast => simp [hr, hp, accepts_of_busy]
  | round hr hp hc hne => simp [hr, hp, hne, accepts_of_busy]
  | roundLast hr hp hlast => simp [hr, hp, hlast, accepts_of_busy]

/-- `err` and `err_code` after any edge (10_state.md R30). -/
theorem EdgeTaken.error {s u : State} (h : EdgeTaken s u) :
    (u.err, u.errCode) = if s.pins.rst then (false, 0)
      else if s.accepts then
        (decide (rejectionCode (decode s.pins.command) s.keyValid ≠ 0),
          rejectionCode (decode s.pins.command) s.keyValid)
      else (s.err, s.errCode) := by
  cases h with
  | reset hr => simp [hr, codeNone]
  | quiet hr hp hv => simp [hr, hp, hv, accepts_of_idle]
  | accept hr hp hv he => simpa [hr, hp, hv, accepts_of_idle] using exec_error he
  | expand hr hp hc hne => simp [hr, hp, accepts_of_busy]
  | expandLast hr hp hc hlast => simp [hr, hp, accepts_of_busy]
  | round hr hp hc hne => simp [hr, hp, accepts_of_busy]
  | roundLast hr hp hlast => simp [hr, hp, accepts_of_busy]

/-- Settles O41: `dout` after each kind of edge, and the byte order of the port. -/
theorem doutIsWrittenAtCompletionOnly : Obligations.DoutIsWrittenAtCompletionOnly := by
  refine ⟨fun s t h => ?_, fun s _ k => extractLsb'_wordOf s.dout k⟩
  obtain ⟨u, hu, rfl⟩ := step_cases h
  exact hu.dout

/-- Settles O42, edge by edge. -/
theorem outValidWindow : Obligations.OutValidWindow := by
  intro s t h
  obtain ⟨u, hu, rfl⟩ := step_cases h
  exact hu.outValid

/-- Settles O43, edge by edge; `exec_error` is the accepting one. -/
theorem errorRecordsTheLastCommand : Obligations.ErrorRecordsTheLastCommand := by
  intro s t h
  obtain ⟨u, hu, rfl⟩ := step_cases h
  exact hu.error

end Sys2Proof.Machine
end

section
/-! PROOF. The bits of the `status` port (10_state.md R31). -/

namespace Sys2Proof.Machine

section

variable (s : State) (rst : Bool)

theorem status_bit_busy : (s.status rst).getLsbD 0 = decide (s.phase ≠ .idle) := by
  simp only [State.status, State.busy, BitVec.getLsbD_append]
  simp

theorem status_bit_keyValid : (s.status rst).getLsbD 1 = s.keyValid := by
  simp only [State.status, BitVec.getLsbD_append]
  simp

theorem status_bit_outValid : (s.status rst).getLsbD 2 = s.outValid := by
  simp only [State.status, BitVec.getLsbD_append]
  simp

theorem status_bit_err : (s.status rst).getLsbD 3 = s.err := by
  simp only [State.status, BitVec.getLsbD_append]
  simp

theorem status_bits_errCode : (s.status rst).extractLsb' 4 2 = s.errCode := by
  simp only [State.status, BitVec.extractLsb'_append_eq_ite]
  simp

theorem status_bit_cmdReady : (s.status rst).getLsbD 6 = s.cmdReady rst := by
  simp only [State.status, BitVec.getLsbD_append]
  simp

theorem status_bit_seven : (s.status rst).getLsbD 7 = false := by
  simp only [State.status, BitVec.getLsbD_append]
  simp

end

/-- Settles O39: one lemma per bit, and the two values at reset by evaluation. -/
theorem statusBits : Obligations.StatusBits := by
  refine ⟨fun s rst => ⟨status_bit_busy s rst, status_bit_keyValid s rst, status_bit_outValid s rst,
      status_bit_err s rst, status_bits_errCode s rst, status_bit_cmdReady s rst, status_bit_seven s rst⟩,
    fun s p => ⟨rfl, (status_bit_cmdReady s p.rst).symm⟩, by decide, by decide⟩

end Sys2Proof.Machine
end

section
/-! PROOF. The byte order of the 128-bit ports and the debug read port (20_memory.md R61, R65, R66;
60_exceptions.md R200). -/

namespace Sys2Proof.Machine

/-! ### The 128-bit ports -/

/-- Byte `k` of a port value is its bits `[127-8*k : 120-8*k]` (20_memory.md R61). -/
@[simp] theorem byte_bytesOf (v : BitVec 128) (k : Fin 16) :
    (bytesOf v).byte k = v.extractLsb' (120 - 8 * k.val) 8 := byte_ofBytes _ k

/-- Two port values are equal when their sixteen bytes are: bit `n` is bit `n % 8` of byte
`15 - n / 8`. -/
theorem portValue_ext_bytes {v w : BitVec 128} (h : ∀ k, (bytesOf v).byte k = (bytesOf w).byte k) :
    v = w := by
  refine BitVec.eq_of_getLsbD_eq fun n hn => ?_
  have hbyte := congrArg (·.getLsbD (n % 8)) (h ⟨15 - n / 8, by omega⟩)
  have hlt : n % 8 < 8 := by omega
  have hpos : 120 - 8 * (15 - n / 8) + n % 8 = n := by omega
  simpa [hlt, hpos] using hbyte

/-- The sixteen bytes of a port value put back give the value (20_memory.md R61). -/
@[simp] theorem wordOf_bytesOf (v : BitVec 128) : wordOf (bytesOf v) = v :=
  portValue_ext_bytes fun k => by rw [byte_bytesOf, extractLsb'_wordOf]

/-- A block read back from its port value is the block. -/
@[simp] theorem bytesOf_wordOf (B : Block) : bytesOf (wordOf B) = B :=
  block_ext_bytes fun k => by rw [byte_bytesOf, extractLsb'_wordOf]

/-- Settles O5: the two positions, and that each map undoes the other because the bytes agree. -/
theorem portByteOrder : Obligations.PortByteOrder :=
  ⟨byte_bytesOf, extractLsb'_wordOf, wordOf_bytesOf, bytesOf_wordOf⟩

/-! ### The debug port -/

/-- Within the key store the debug port shows the addressed word (60_exceptions.md R200). -/
theorem rkWord_of_lt (W : KeyStore) {rkIdx : BitVec 6} {i : Nat} (h : rkIdx.toNat = i) (hi : i < 44) :
    rkWord W rkIdx = wordBits W[i] := by
  subst h
  exact dif_pos (by omega)

/-- Past word 43 the debug port shows 0 (60_exceptions.md R200). -/
theorem rkWord_of_gt (W : KeyStore) {rkIdx : BitVec 6} (h : 43 < rkIdx.toNat) : rkWord W rkIdx = 0 :=
  dif_neg (by omega)

/-- Word `i` after the key split is row `i` of the key (20_memory.md R64). -/
theorem getElem_storeKey_row (K : Block) (W : KeyStore) (i : Fin 4) :
    (storeKey K W)[i.val]'(by omega) = K.row i := by
  obtain ⟨h0, h1, h2, h3⟩ := storeKey_holdsKey K W
  match i with
  | 0 => exact h0
  | 1 => exact h1
  | 2 => exact h2
  | 3 => exact h3

/-- Row `r` of a port value's block is its bits `[127-32*r : 96-32*r]` (20_memory.md R66). -/
theorem wordBits_row_bytesOf (v : BitVec 128) (r : Fin 4) :
    wordBits ((bytesOf v).row r) = v.extractLsb' (96 - 32 * r.val) 32 := by
  have hrow := extractLsb'_wordOf_row (bytesOf v) r (start := 0) (len := 32) (by omega)
  simpa using hrow.symm

/-- Settles O6: the port's two ranges, and the key split seen through it. -/
theorem debugPortReadsTheKeyStore : Obligations.DebugPortReadsTheKeyStore := by
  refine ⟨fun s p => ⟨fun h j => ?_, rkWord_of_gt s.W⟩, fun s len keyIn dataIn =>
    ⟨startExpansion (bytesOf keyIn) (clearOutcome s), rfl, fun i p hi => ?_⟩⟩
  · have hword : (s.outputs p).rkWord = wordBits s.W[p.rkIdx.toNat] := rkWord_of_lt s.W rfl (by omega)
    rw [hword, extractLsb'_wordBits]
  · calc rkWord (storeKey (bytesOf keyIn) s.W) p.rkIdx
        = wordBits ((storeKey (bytesOf keyIn) s.W)[i.val]'(by omega)) := rkWord_of_lt _ hi (by omega)
      _ = wordBits ((bytesOf keyIn).row i) := by rw [getElem_storeKey_row]
      _ = keyIn.extractLsb' (96 - 32 * i.val) 32 := wordBits_row_bytesOf keyIn i

end Sys2Proof.Machine
end

section
/-! PROOF. The fields no command reads (30_encoding.md R84): what each accepting edge does, written without
the operands it ignores, and the bytes of a chunk that `pad` overwrites (44_block_driver.md R170). -/

namespace Sys2Proof.Machine

/-! ### The accepting edge of each command, in the operands it uses -/

section

variable (len : BitVec 4) (k d : BitVec 128) (s : State)

/-- LOAD_KEY reads `key_in` alone (42_key_schedule.md R120). -/
@[simp] theorem exec_loadKey :
    exec (.loadKey len k d) s = .next (startExpansion (bytesOf k) (clearOutcome s)) := rfl

/-- ENCRYPT reads `data_in` alone (43_round_pipeline.md R146). -/
@[simp] theorem exec_encrypt :
    exec (.encrypt len k d) s = .next (acceptBlock (bytesOf d) (clearOutcome s)) := rfl

/-- ENCRYPT_PAD reads the padded chunk alone (44_block_driver.md R171). -/
@[simp] theorem exec_encryptPad :
    exec (.encryptPad len k d) s = .next (acceptBlock (pad (bytesOf d) len) (clearOutcome s)) := rfl

/-- RSVD reads no operand (60_exceptions.md R192). -/
@[simp] theorem exec_rsvd :
    exec (.rsvd len k d) s = .next (raiseError codeIllegalOp (clearOutcome s)) := rfl

end

/-! ### The bytes padding overwrites -/

/-- Byte `k` of a padded chunk (44_block_driver.md R170). -/
theorem byte_pad (D : Block) (len : BitVec 4) (k : Fin 16) :
    (pad D len).byte k = if k.val < len.toNat then D.byte k else BitVec.ofNat 8 (padCount len) :=
  byte_ofBytes _ k

/-- The bytes of a chunk from `len` on do not reach the padded block: each of its bytes is one of the
first `len` or the pad count. -/
theorem pad_eq_of_bytes_lt {D D' : Block} {len : BitVec 4}
    (h : ∀ k : Fin 16, k.val < len.toNat → D.byte k = D'.byte k) : pad D len = pad D' len := by
  refine block_ext_bytes fun k => ?_
  rw [byte_pad, byte_pad]
  by_cases hk : k.val < len.toNat
  · rw [if_pos hk, if_pos hk, h k hk]
  · rw [if_neg hk, if_neg hk]

/-- Settles O4: no accepting edge reads an ignored operand, and for ENCRYPT_PAD the two chunks pad to the
same block. -/
theorem ignoredFieldsAreDontCare : Obligations.IgnoredFieldsAreDontCare := by
  intro s len len' k k' d d'
  refine ⟨?loadKey, ?encrypt, ?rsvd, fun hbytes => ?encryptPad⟩
  case loadKey => rw [exec_loadKey, exec_loadKey]
  case encrypt => rw [exec_encrypt, exec_encrypt]
  case rsvd => rw [exec_rsvd, exec_rsvd]
  case encryptPad => rw [exec_encryptPad, exec_encryptPad, pad_eq_of_bytes_lt hbytes]

end Sys2Proof.Machine
end

section
/-! PROOF. The field under the tables (41_gf_multiplier.md R112, R113; 40_tables.md R103): `gfMul` is additive
and commutes with `xtime` in its left operand, so every nonzero byte, being a power of 0x03, multiplies by
adding exponents. Commutativity and associativity follow without a run over pairs of bytes. -/

namespace Sys2Proof.Machine

/-! ### The product, additive in its left operand -/

/-- Two sums of two bytes each, summed crosswise. -/
theorem xor_interchange (a b c d : Byte) : (a ^^^ b) ^^^ (c ^^^ d) = (a ^^^ c) ^^^ (b ^^^ d) := by ac_rfl

/-- `xtime` is additive: the shift is, and the reduction is taken once per set bit 7
(41_gf_multiplier.md R113). -/
theorem xtime_xor (a b : Byte) : xtime (a ^^^ b) = xtime a ^^^ xtime b := by
  have hshift : (a ^^^ b) <<< 1 = a <<< 1 ^^^ b <<< 1 := BitVec.shiftLeft_xor_distrib a b 1
  unfold xtime
  rw [BitVec.getLsbD_xor, hshift]
  cases a.getLsbD 7 with
  | false =>
    cases b.getLsbD 7 with
    | false => rfl
    | true => exact BitVec.xor_assoc ..
  | true =>
    cases b.getLsbD 7 with
    | false =>
      change (a <<< 1 ^^^ b <<< 1) ^^^ 0x1B = (a <<< 1 ^^^ 0x1B) ^^^ b <<< 1
      ac_rfl
    | true => exact BitVec.xor_zero.symm.trans (xor_interchange (a <<< 1) (b <<< 1) 0x1B 0x1B)

/-- The loop is additive in its accumulator and left operand together. -/
theorem gfMulLoop_xor (n : Nat) (p q a c b : Byte) :
    gfMulLoop n (p ^^^ q) (a ^^^ c) b = gfMulLoop n p a b ^^^ gfMulLoop n q c b := by
  induction n generalizing p q a c b with
  | zero => rfl
  | succ n ih =>
    have hacc : (if b.getLsbD 0 then (p ^^^ q) ^^^ (a ^^^ c) else p ^^^ q) =
        (if b.getLsbD 0 then p ^^^ a else p) ^^^ (if b.getLsbD 0 then q ^^^ c else q) := by
      split
      · exact xor_interchange p q a c
      · rfl
    rw [gfMulLoop, hacc, xtime_xor, ih, gfMulLoop, gfMulLoop]

/-- The loop commutes with `xtime` in its accumulator and left operand together. -/
theorem gfMulLoop_xtime (n : Nat) (p a b : Byte) :
    gfMulLoop n (xtime p) (xtime a) b = xtime (gfMulLoop n p a b) := by
  induction n generalizing p a b with
  | zero => rfl
  | succ n ih =>
    rw [gfMulLoop, gfMulLoop, ← ih, apply_ite xtime, xtime_xor]

theorem gfMul_xor_left (a c b : Byte) : gfMul (a ^^^ c) b = gfMul a b ^^^ gfMul c b :=
  gfMulLoop_xor 8 0 0 a c b

theorem gfMul_xtime_left (a b : Byte) : gfMul (xtime a) b = xtime (gfMul a b) :=
  gfMulLoop_xtime 8 0 a b

theorem gfMul_zero_left (b : Byte) : gfMul 0 b = 0 := by
  simpa using gfMul_xor_left 0 0 b

theorem gfMulLoop_zero_right (n : Nat) (p a : Byte) : gfMulLoop n p a 0 = p := by
  induction n generalizing p a with
  | zero => rfl
  | succ n ih => exact ih p (xtime a)

theorem gfMul_zero_right (a : Byte) : gfMul a 0 = 0 := gfMulLoop_zero_right 8 0 a

theorem gfMul_one_left (b : Byte) : gfMul 1 b = b := by
  revert b
  decide +kernel

/-- Multiplying by the generator is `xtime(v) ^ v` (41_gf_multiplier.md R113), as 0x03 is
`xtime(1) ^ 1`. -/
theorem gfMul_generator (b : Byte) : gfMul 0x03 b = xtime b ^^^ b := by
  have h := gfMul_xor_left (xtime 1) 1 b
  rwa [gfMul_xtime_left, gfMul_one_left] at h

/-- A factor 0x03 of the left operand comes out of the product. -/
theorem gfMul_generator_assoc (a b : Byte) : gfMul (gfMul 0x03 a) b = gfMul 0x03 (gfMul a b) := by
  rw [gfMul_generator, gfMul_generator, gfMul_xor_left, gfMul_xtime_left]

/-! ### Powers of the generator -/

/-- Products of powers of 0x03 add the exponents. -/
theorem gfPow_add (m n : Nat) : gfPow 0x03 (m + n) = gfMul (gfPow 0x03 m) (gfPow 0x03 n) := by
  induction m with
  | zero => rw [Nat.zero_add, gfPow, gfMul_one_left]
  | succ m ih => rw [Nat.succ_add, gfPow, gfPow, ih, gfMul_generator_assoc]

/-- Each entry of ANTILOG is 0x03 times the one before it, the last one at 255 as well
(40_tables.md R103). -/
theorem antilog_succ : ∀ k : Fin 255,
    antilog (BitVec.ofNat 8 (k.val + 1)) = gfMul 0x03 (antilog (BitVec.ofNat 8 k.val)) := by
  decide +kernel

/-- ANTILOG holds the powers of 0x03 (40_tables.md R103). -/
theorem antilog_ofNat {k : Nat} (hk : k ≤ 255) : antilog (BitVec.ofNat 8 k) = gfPow 0x03 k := by
  induction k with
  | zero => rfl
  | succ k ih => rw [antilog_succ ⟨k, hk⟩, ih (by omega), gfPow]

theorem antilog_eq_gfPow (k : Byte) : antilog k = gfPow 0x03 k.toNat := by
  have h := antilog_ofNat (k := k.toNat) (by omega)
  rwa [BitVec.ofNat_toNat, BitVec.setWidth_eq] at h

theorem antilog_last : antilog 255 = 0x01 := rfl

/-! ### Logarithms -/

/-- LOG[b] is an index of ANTILOG at which b stands (40_tables.md R104). -/
theorem antilog_log {b : Byte} : b ≠ 0 → antilog (log b) = b := by
  revert b
  decide +kernel

/-- No entry of LOG is 255 (40_tables.md R104; 41_gf_multiplier.md R114). -/
theorem log_toNat_le (b : Byte) : (log b).toNat ≤ 254 := by
  revert b
  decide +kernel

/-- ANTILOG has no entry twice below 255: LOG gives each index back (40_tables.md R104). -/
theorem log_antilog : ∀ k : Fin 255,
    log (antilog (BitVec.ofNat 8 k.val)) = BitVec.ofNat 8 k.val := by
  decide +kernel

/-- Every nonzero byte is a power of the generator (40_tables.md R103, R104). -/
theorem gfPow_log {b : Byte} (hb : b ≠ 0) : gfPow 0x03 (log b).toNat = b := by
  rw [← antilog_eq_gfPow, antilog_log hb]

/-- Every byte is 0 or a power of the generator, the two cases of a proof about products. -/
theorem eq_zero_or_gfPow (b : Byte) : b = 0 ∨ ∃ m, b = gfPow 0x03 m :=
  or_iff_not_imp_left.mpr fun hb => ⟨_, (gfPow_log hb).symm⟩

/-! ### The laws of the product -/

theorem gfMul_comm (a b : Byte) : gfMul a b = gfMul b a := by
  obtain rfl | ⟨m, rfl⟩ := eq_zero_or_gfPow a
  · rw [gfMul_zero_left, gfMul_zero_right]
  obtain rfl | ⟨n, rfl⟩ := eq_zero_or_gfPow b
  · rw [gfMul_zero_left, gfMul_zero_right]
  rw [← gfPow_add, ← gfPow_add, Nat.add_comm]

theorem gfMul_assoc (a b c : Byte) : gfMul (gfMul a b) c = gfMul a (gfMul b c) := by
  obtain rfl | ⟨m, rfl⟩ := eq_zero_or_gfPow a
  · simp only [gfMul_zero_left]
  induction m with
  | zero => rw [gfPow, gfMul_one_left, gfMul_one_left]
  | succ m ih => rw [gfPow, gfMul_generator_assoc, gfMul_generator_assoc, gfMul_generator_assoc, ih]

theorem gfMul_one_right (a : Byte) : gfMul a 1 = a := by rw [gfMul_comm, gfMul_one_left]

/-- Negating the logarithm gives an inverse: the exponents add to 255, where ANTILOG is 1. -/
theorem gfMul_antilog_sub_log {b : Byte} (hb : b ≠ 0) : gfMul b (antilog (255 - log b)) = 1 := by
  have hexp : (log b).toNat + (255 - log b).toNat = 255 := by bv_omega
  calc gfMul b (antilog (255 - log b))
      = gfMul (gfPow 0x03 (log b).toNat) (gfPow 0x03 (255 - log b).toNat) := by
        rw [gfPow_log hb, antilog_eq_gfPow]
    _ = gfPow 0x03 255 := by rw [← gfPow_add, hexp]
    _ = antilog 255 := (antilog_eq_gfPow 255).symm
    _ = 1 := antilog_last

/-- A nonzero byte has exactly one inverse, the one its logarithm gives. -/
theorem gfMul_eq_one_iff {b x : Byte} (hb : b ≠ 0) : gfMul b x = 1 ↔ x = antilog (255 - log b) := by
  refine ⟨fun hx => ?_, fun hx => hx ▸ gfMul_antilog_sub_log hb⟩
  calc x = gfMul (gfMul b (antilog (255 - log b))) x := by
        rw [gfMul_antilog_sub_log hb, gfMul_one_left]
    _ = gfMul (antilog (255 - log b)) (gfMul b x) := by
        rw [gfMul_comm b (antilog _), gfMul_assoc]
    _ = antilog (255 - log b) := by rw [hx, gfMul_one_right]

end Sys2Proof.Machine
end

section
/-! PROOF. The constant tables against their definitions (40_tables.md R101 to R104). -/

namespace Sys2Proof.Machine

/-- `inv(b)` of R101 in table form: 0 for 0, else the byte at the negated logarithm. -/
def tableInv (b : Byte) : Byte := if b = 0 then 0 else antilog (255 - log b)

/-- Every byte has exactly one inverse in the sense of R101, the one the tables give. -/
theorem isInv_iff {b x : Byte} : IsInv b x ↔ x = tableInv b := by
  unfold IsInv tableInv
  by_cases hb : b = 0
  · simp only [hb, ne_eq, not_true, true_and, false_and, or_false, if_true]
  · simp only [hb, ne_eq, not_false_eq_true, false_and, true_and, false_or, if_false, gfMul_eq_one_iff hb]

/-- The S-box table at every index, with the inverse read off the logarithm tables (40_tables.md R100,
R101). -/
theorem sbox_eq_affine_tableInv : ∀ b : Byte, sbox b = affine (tableInv b) := by
  decide +kernel

/-- Settles O8: the inverse exists and is the one of `isInv_iff`, at which the table was checked. -/
theorem sboxIsAffineOfInverse : Obligations.SboxIsAffineOfInverse := by
  refine ⟨fun b => ⟨_, isInv_iff.mpr rfl⟩, fun b x hx => ?_, rfl, rfl, rfl, rfl⟩
  rw [sbox_eq_affine_tableInv, isInv_iff.mp hx]

/-- Each round constant is `xtime` of the one before it (40_tables.md R102). -/
theorem rcon_succ : ∀ k : Fin 9, rcon k.succ = xtime (rcon k.castSucc) := by decide

/-- Settles O9, table by table. -/
theorem rconAndLogTables : Obligations.RconAndLogTables :=
  ⟨⟨rfl, rcon_succ⟩, ⟨fun k => antilog_ofNat (by omega), antilog_last⟩,
    fun b hb => ⟨log_toNat_le b, antilog_log hb⟩, log_antilog, rfl, rfl⟩

end Sys2Proof.Machine
end

section
/-! PROOF. The table multiplier against the field product (41_gf_multiplier.md R111 to R115): the powers of
0x03 repeat after 255, so reducing a sum of logarithms loses nothing, and the laws of `gfMul` are those of
`gmul`. -/

namespace Sys2Proof.Machine

/-! ### The reduced index -/

/-- 508 - 255 = 253 < 255: one conditional subtraction is the remainder (41_gf_multiplier.md R114). -/
theorem logSum_eq_mod (r i : Byte) : logSum r i = ((log r).toNat + (log i).toNat) % 255 := by
  have hr := log_toNat_le r
  have hi := log_toNat_le i
  simp only [logSum]
  split <;> omega

theorem logSum_le (r i : Byte) : logSum r i ≤ 254 := by
  rw [logSum_eq_mod]
  exact Nat.le_of_lt_succ (Nat.mod_lt _ (by decide))

/-- Settles O13: the bound on LOG makes the reduction a remainder, and ANTILOG holds 0x01 at both ends. -/
theorem logSumReduction : Obligations.LogSumReduction :=
  ⟨fun b _ => log_toNat_le b, fun r i _ _ => ⟨logSum_eq_mod r i, logSum_le r i⟩, antilog_last⟩

/-! ### The table algorithm gives the product -/

/-- The generator has order dividing 255 (40_tables.md R103): ANTILOG ends with 0x01. -/
theorem gfPow_periodic : Function.Periodic (gfPow 0x03) 255 := by
  intro n
  have hlast : gfPow 0x03 255 = 1 := (antilog_eq_gfPow 255).symm.trans antilog_last
  rw [gfPow_add, hlast, gfMul_one_right]

/-- The table path of `gmul`: looking up the reduced sum of logarithms multiplies nonzero bytes. -/
theorem antilog_logSum {r i : Byte} (hr : r ≠ 0) (hi : i ≠ 0) :
    antilog (BitVec.ofNat 8 (logSum r i)) = gfMul r i :=
  calc antilog (BitVec.ofNat 8 (logSum r i))
      = gfPow 0x03 (logSum r i) := antilog_ofNat ((logSum_le r i).trans (by decide))
    _ = gfPow 0x03 ((log r).toNat + (log i).toNat) := by rw [logSum_eq_mod, gfPow_periodic.map_mod_nat]
    _ = gfMul r i := by rw [gfPow_add, gfPow_log hr, gfPow_log hi]

/-- Each of the four returns of R111 is the field product. -/
theorem gmul_eq_gfMul (r i : Byte) : gmul r i = gfMul r i := by
  unfold gmul
  split
  next hzero =>
    obtain rfl | rfl := hzero
    · exact (gfMul_zero_left i).symm
    · exact (gfMul_zero_right r).symm
  next hnonzero =>
    obtain ⟨hr, hi⟩ := not_or.mp hnonzero
    split
    next hone => rw [hone, gfMul_one_left]
    next =>
      split
      next hone => rw [hone, gfMul_one_right]
      next => exact antilog_logSum hr hi

/-- Settles O10, return by return of the table algorithm. -/
theorem gmulIsTheFieldProduct : Obligations.GmulIsTheFieldProduct := gmul_eq_gfMul

/-! ### The laws of R115 -/

theorem gfMul_xor_right (a b c : Byte) : gfMul a (b ^^^ c) = gfMul a b ^^^ gfMul a c := by
  rw [gfMul_comm, gfMul_xor_left, gfMul_comm b, gfMul_comm c]

/-- No zero divisors: a nonzero left factor cancels by its inverse. -/
theorem gfMul_eq_zero {a b : Byte} (h : gfMul a b = 0) : a = 0 ∨ b = 0 := by
  refine or_iff_not_imp_left.mpr fun ha => ?_
  calc b = gfMul (gfMul a (antilog (255 - log a))) b := by
        rw [gfMul_antilog_sub_log ha, gfMul_one_left]
    _ = gfMul (antilog (255 - log a)) (gfMul a b) := by
        rw [gfMul_comm a (antilog _), gfMul_assoc]
    _ = 0 := by rw [h, gfMul_zero_right]

/-- Settles O11: the laws of the field product, carried over by `gmul_eq_gfMul`. -/
theorem gmulAlgebra : Obligations.GmulAlgebra := by
  intro a b c
  simp only [gmul_eq_gfMul]
  exact ⟨⟨gfMul_zero_right a, gfMul_zero_left a⟩, ⟨gfMul_one_right a, gfMul_one_left a⟩,
    gfMul_comm a b, gfMul_assoc a b c, gfMul_xor_right a b c, gfMul_eq_zero⟩

/-! ### The multipliers of the MixColumns matrix -/

theorem gmul_one_right (v : Byte) : gmul v 0x01 = v := by
  rw [gmul_eq_gfMul, gfMul_one_right]

/-- `xtime` is multiplication by 0x02, as 0x02 is `xtime(1)` (41_gf_multiplier.md R113). -/
theorem gmul_two_right (v : Byte) : gmul v 0x02 = xtime v := by
  have htwo := gfMul_xtime_left 1 v
  rw [gfMul_one_left] at htwo
  rwa [gmul_eq_gfMul, gfMul_comm]

theorem gmul_three_right (v : Byte) : gmul v 0x03 = xtime v ^^^ v := by
  rw [gmul_eq_gfMul, gfMul_comm, gfMul_generator]

/-- Settles O12, multiplier by multiplier; the rest is `xtime` itself and its worked examples. -/
theorem xtimeAndTheMatrixMultipliers : Obligations.XtimeAndTheMatrixMultipliers :=
  ⟨fun v => ⟨gmul_two_right v, gmul_one_right v, gmul_three_right v⟩, fun _ => rfl, rfl, rfl, rfl⟩

end Sys2Proof.Machine
end

section
/-! PROOF. The key schedule as functions (42_key_schedule.md R122 to R127): the recurrence byte by byte, and
the store of a key that is partly expanded. -/

namespace Sys2Proof.Machine

/-! ### The recurrence -/

/-- The "new round" word, at a multiple of 4 (42_key_schedule.md R122). -/
theorem nextWord_newRound {i : Fin 44} (hi : i.val % 4 = 0) (prev back4 : Word) :
    nextWord i prev back4 = xorWord (xorFirst (subWord (rotWord prev)) (roundConstant i)) back4 :=
  if_pos hi

/-- The "next round" word, at every other index (42_key_schedule.md R122). -/
theorem nextWord_nextRound {i : Fin 44} (hi : i.val % 4 ≠ 0) (prev back4 : Word) :
    nextWord i prev back4 = xorWord prev back4 :=
  if_neg hi

/-- Settles O21: the two transforms of the recurrence, and its worked examples by evaluation. -/
theorem nextWordRecurrence : Obligations.NextWordRecurrence := by
  refine ⟨fun _ => rfl, fun _ => rfl, fun i prev back4 _ hi => ⟨⟨i.val / 4 - 1, by omega⟩, rfl, ?newRound⟩,
    fun i prev back4 hi j => ?nextRound, rfl, rfl, rfl, rfl, rfl, rfl⟩
  case newRound => rw [nextWord_newRound hi]; rfl
  case nextRound => rw [nextWord_nextRound hi, get_xorWord]

/-! ### The complete expansion -/

/-- A KEYEXP write leaves the key words alone: it is at word 4 or later. -/
theorem HoldsKey.extend {K : Block} {W : KeyStore} {i : Nat} (h : 4 ≤ i ∧ i < 44) (hW : HoldsKey K W) :
    HoldsKey K (extendStore W i h) := by
  unfold HoldsKey
  simp only [getElem_extendStore]
  rwa [if_neg (by omega), if_neg (by omega), if_neg (by omega), if_neg (by omega)]

/-- After `n` edges of an expansion the key words stand, and the recurrence holds below word `n + 4`. -/
theorem expandUpTo_holdsKey_followsRecurrence (K : Block) {n : Nat} (hn : n ≤ 40) :
    HoldsKey K (expandUpTo K n) ∧ FollowsRecurrence (expandUpTo K n) (n + 4) := by
  induction n with
  | zero => exact ⟨storeKey_holdsKey K _, followsRecurrence_four _⟩
  | succ n ih =>
    obtain ⟨hkey, hrec⟩ := ih (by omega)
    rw [expandUpTo_succ K n (by omega), Nat.add_right_comm]
    exact ⟨hkey.extend _, hrec.extend _⟩

/-- `expand(K)` is the key split and the recurrence (42_key_schedule.md R126). -/
theorem expand_isExpansion (K : Block) : IsExpansion K (expand K) :=
  expandUpTo_holdsKey_followsRecurrence K le_rfl

/-! ### A store in the middle of an expansion -/

/-- `W` is the store of a LOAD_KEY of `K` over the store `old` once the words below `m` are written:
those are the words of `expand(K)`, and the others are still `old`'s. -/
def ExpandedBelow (K : Block) (old : KeyStore) (m : Nat) (W : KeyStore) : Prop :=
  ∀ i (h : i < 44), W[i] = if i < m then (expand K)[i] else old[i]

/-- The key split writes the words below 4 of the expansion (42_key_schedule.md R120). -/
theorem expandedBelow_storeKey (K : Block) (old : KeyStore) : ExpandedBelow K old 4 (storeKey K old) := by
  intro i h
  obtain hlt | hge := Nat.lt_or_ge i 4
  · obtain ⟨h0, h1, h2, h3⟩ := storeKey_holdsKey K old
    obtain ⟨⟨e0, e1, e2, e3⟩, -⟩ := expand_isExpansion K
    rw [if_pos hlt]
    match i, hlt with
    | 0, _ => exact h0.trans e0.symm
    | 1, _ => exact h1.trans e1.symm
    | 2, _ => exact h2.trans e2.symm
    | 3, _ => exact h3.trans e3.symm
  · rw [if_neg (by omega), getElem_storeKey_of_ge K old i ⟨hge, h⟩]

/-- A KEYEXP write at the first word not yet written writes one more word of the expansion: the two words
it reads are of the same expansion (42_key_schedule.md R127). -/
theorem ExpandedBelow.extend {K : Block} {old W : KeyStore} {m : Nat} (h : 4 ≤ m ∧ m < 44)
    (hW : ExpandedBelow K old m W) : ExpandedBelow K old (m + 1) (extendStore W m h) := by
  intro i hi
  rw [getElem_extendStore]
  by_cases hmi : m = i
  · subst hmi
    rw [if_pos rfl, if_pos (by omega), hW (m - 1) (by omega), hW (m - 4) (by omega), if_pos (by omega),
      if_pos (by omega)]
    exact ((expand_isExpansion K).2 m h h.2).symm
  · have hlt : i < m ↔ i < m + 1 := by omega
    rw [if_neg hmi, hW i hi]
    simp only [hlt]

/-- Once all 44 words are written nothing of the old store is left (42_key_schedule.md R127). -/
theorem ExpandedBelow.eq_expand {K : Block} {old W : KeyStore} (h : ExpandedBelow K old 44 W) :
    W = expand K :=
  Vector.ext fun i hi => (h i hi).trans (if_pos hi)

end Sys2Proof.Machine
end

section
/-! PROOF. LOAD_KEY edge by edge (42_key_schedule.md R120, R121, R126, R128): its accepting edge, the KEYEXP
edges, the whole run, and that no other edge but reset writes the key store. -/

namespace Sys2Proof.Machine

/-! ### The accepting edge -/

/-- Byte `4*r + c` of a block is `X[r][c]` (00_scope.md R9). -/
theorem byte_rowMajor (X : Block) (r c : Fin 4) : X.byte ⟨4 * r.val + c.val, by omega⟩ = X.get r c := by
  have hr : (⟨(4 * r.val + c.val) / 4, by omega⟩ : Fin 4) = r := by ext; simp only; omega
  have hc : (⟨(4 * r.val + c.val) % 4, by omega⟩ : Fin 4) = c := by ext; simp only; omega
  simp only [Block.byte, hr, hc]

/-- Settles O23: the accepting edge writes the key split and nothing else of the store. -/
theorem loadKeyAcceptingEdge : Obligations.LoadKeyAcceptingEdge := by
  refine ⟨fun s len keyIn dataIn => ⟨storeKey (bytesOf keyIn) s.W, rfl, fun i j => ?keyWords,
    fun i h => getElem_storeKey_of_ge _ s.W i h⟩, fun s t len keyIn dataIn ht => ?busy, rfl, rfl⟩
  case keyWords => rw [getElem_storeKey_row, byte_rowMajor, Block.get]
  case busy => rw [exec_loadKey] at ht; cases ht; rfl

/-! ### Who writes the key store -/

/-- The accepting edge of an encrypting command reads the key store only. -/
@[simp] theorem acceptBlock_W (P : Block) (s : State) : (acceptBlock P s).W = s.W := by
  cases hk : s.keyValid with
  | true => rw [acceptBlock_of_key P hk, startBlock_W]
  | false => rw [acceptBlock_of_noKey P hk, raiseError_W]

/-- A command that changes the key store at its accepting edge is LOAD_KEY (42_key_schedule.md R128). -/
theorem exec_writes_keyStore {i : Instr} {s u : State} (h : exec i s = .next u) (hW : u.W ≠ s.W) :
    ∃ len k d, i = .loadKey len k d := by
  cases i with
  | loadKey len k d => exact ⟨len, k, d, rfl⟩
  | encrypt len k d => cases h; exact absurd (acceptBlock_W _ _) hW
  | encryptPad len k d => cases h; exact absurd (acceptBlock_W _ _) hW
  | rsvd len k d => cases h; exact absurd rfl hW

/-- Settles O40, edge by edge. -/
theorem onlyLoadKeyAndResetWriteTheKeyStore : Obligations.OnlyLoadKeyAndResetWriteTheKeyStore := by
  intro s t h hW
  obtain ⟨u, hu, rfl⟩ := step_cases h
  cases hu with
  | reset hr => exact .inl hr
  | quiet hr hp hv => exact absurd rfl hW
  | accept hr hp hv he => exact .inr (.inr ⟨accepts_iff.mpr ⟨hr, hv, hp⟩, exec_writes_keyStore he hW⟩)
  | expand hr hp hc hne => exact .inr (.inl hp)
  | expandLast hr hp hc hlast => exact .inr (.inl hp)
  | round hr hp hc hne => exact absurd rfl hW
  | roundLast hr hp hlast => exact absurd rfl hW

/-! ### The KEYEXP edge -/

/-- The registers after the KEYEXP edge for word `ctr` (42_key_schedule.md R121). -/
def expandWord (s : State) (h : 4 ≤ s.ctr.toNat ∧ s.ctr.toNat < 44) : State :=
  if s.ctr.toNat = 43 then
    { s with W := extendStore s.W s.ctr.toNat h, keyValid := true, ctr := 0, phase := .idle }
  else { s with W := extendStore s.W s.ctr.toNat h, ctr := s.ctr + 1 }

theorem expandWord_of_lt {s : State} (h : 4 ≤ s.ctr.toNat ∧ s.ctr.toNat < 44) (hlt : s.ctr.toNat < 43) :
    expandWord s h = { s with W := extendStore s.W s.ctr.toNat h, ctr := s.ctr + 1 } :=
  if_neg (by omega)

theorem expandWord_last {s : State} (h : 4 ≤ s.ctr.toNat ∧ s.ctr.toNat < 44) (hlast : s.ctr.toNat = 43) :
    expandWord s h =
      { s with W := extendStore s.W s.ctr.toNat h, keyValid := true, ctr := 0, phase := .idle } :=
  if_pos hlast

/-- A step in KEYEXP without reset is the KEYEXP edge for word `ctr`, whatever the host offers. -/
theorem step_of_keyexp {s : State} (hp : s.phase = .keyexp) (hr : s.pins.rst = false)
    (h : 4 ≤ s.ctr.toNat ∧ s.ctr.toNat < 44) : step s = .next (record s (expandWord s h)) := by
  refine step_of_edge ((edge_of_keyexp hr hp).trans ?_)
  obtain hlast | hlt : s.ctr.toNat = 43 ∨ s.ctr.toNat < 43 := by omega
  · rw [expandWord_last h hlast, keyexpEdge_last hlast]
  · rw [expandWord_of_lt h hlt, keyexpEdge_of_lt ⟨h.1, hlt⟩]

/-- Settles O35: the registers are those of `expandWord`, whose store is one KEYEXP write further; the
worked example is the recurrence at word 4 of an all-zero key. -/
theorem keyExpansionEdge : Obligations.KeyExpansionEdge := by
  refine ⟨fun s h hp hr => ?edge, ?zeroKey⟩
  case edge =>
    have hc : 4 ≤ s.ctr.toNat ∧ s.ctr.toNat < 44 := ⟨h.1, by omega⟩
    refine ⟨extendStore s.W s.ctr.toNat hc, expandWord s hc, step_of_keyexp hp hr hc, ?written,
      fun j hj hne => ?kept, expandWord_last hc, expandWord_of_lt hc⟩
    case written => rw [getElem_extendStore, if_pos rfl]
    case kept => rw [getElem_extendStore, if_neg hne.symm]
  case zeroKey =>
    obtain ⟨⟨h0, -, -, h3⟩, hrec⟩ := expand_isExpansion (bytesOf 0)
    calc (expand (bytesOf 0))[4]
        = nextWord 4 (expand (bytesOf 0))[3] (expand (bytesOf 0))[0] := hrec 4 (by decide) (by decide)
      _ = nextWord 4 (bytesOf 0).r3 (bytesOf 0).r0 := by rw [h0, h3]
      _ = ⟨0x62, 0x63, 0x63, 0x63⟩ := by decide

/-! ### The run -/

/-- Encoding a command loses nothing: `cmd = {len, op}` (30_encoding.md R81). -/
theorem decode_encode (i : Instr) : decode (encode i) = i := by
  have hop : opField (encode i).cmd = i.op := by
    rw [opField, encode, BitVec.extractLsb'_append_eq_of_add_le (by decide), BitVec.extractLsb'_eq_self]
  have hlen : lenField (encode i).cmd = i.len := by
    rw [lenField, encode, BitVec.extractLsb'_append_eq_of_le (by decide), BitVec.extractLsb'_eq_self]
  simp only [decode, hop, hlen]
  cases i with
  | loadKey len k d => rfl
  | encrypt len k d => rfl
  | encryptPad len k d => rfl
  | rsvd len k d => rfl

/-- A run, one edge further. -/
theorem runFor_snoc {s t u : State} {m : Nat} (h : runFor m s = .next t) (hu : step t = .next u) :
    runFor (m + 1) s = .next u := by
  rw [runFor_add h, runFor_succ hu, runFor_zero]

/-- `t` is the state `n` edges after the accepting edge, in `s`, of a LOAD_KEY of `K`. -/
structure LoadingKey (K : Block) (s : State) (n : Nat) (t : State) : Prop where
  plan : NoReset t.script
  words : ExpandedBelow K s.W (4 + n) t.W
  keyValid : t.keyValid = decide (n = 40)
  underWay : n < 40 → t.phase = .keyexp ∧ t.ctr.toNat = 4 + n
  finished : n = 40 → t.phase = .idle ∧ t.ctr = 0
  frame : t.S = s.S ∧ t.dout = s.dout ∧ t.outValid = false ∧ t.err = false ∧ t.errCode = 0

/-- A LOAD_KEY offered in IDLE is accepted at the next edge. -/
theorem loadingKey_accepted {s : State} {len : BitVec 4} {keyIn dataIn : BitVec 128}
    {rest : List HostAction} (hp : s.phase = .idle)
    (hs : s.script = .offer (encode (.loadKey len keyIn dataIn)) :: rest) (hrest : NoReset rest) :
    ∃ t, step s = .next t ∧ LoadingKey (bytesOf keyIn) s 0 t := by
  have hpins := pins_of_offer hs
  have hedge : edge s = .next (startExpansion (bytesOf keyIn) (clearOutcome s)) := by
    rw [edge_of_accept (by rw [hpins]; rfl) (by rw [hpins]; rfl) hp, hpins, offeringPins_command,
      decode_encode, exec_loadKey]
  exact ⟨_, step_of_edge hedge,
    { plan := by rwa [record_script, planAfter_of_offer_idle hs hp]
      words := expandedBelow_storeKey _ s.W
      keyValid := rfl
      underWay := fun _ => ⟨rfl, rfl⟩
      finished := fun h => by omega
      frame := ⟨rfl, rfl, rfl, rfl, rfl⟩ }⟩

/-- While words are missing, the next edge writes the next one, and the last one completes the key. -/
theorem LoadingKey.step {K : Block} {s t : State} {n : Nat} (h : LoadingKey K s n t) (hn : n < 40) :
    ∃ u, Machine.step t = .next u ∧ LoadingKey K s (n + 1) u := by
  obtain ⟨hp, hctr⟩ := h.underWay hn
  obtain ⟨hr, hplan⟩ := h.plan.present (decide (t.phase = .idle))
  have hc : 4 ≤ t.ctr.toNat ∧ t.ctr.toNat < 44 := by omega
  have hwords : ExpandedBelow K s.W (4 + (n + 1)) (extendStore t.W t.ctr.toNat hc) := by
    simp only [hctr]
    exact h.words.extend _
  refine ⟨_, step_of_keyexp hp hr hc, ?_⟩
  obtain hlast | hmore : n = 39 ∨ n < 39 := by omega
  · subst hlast
    rw [expandWord_last hc hctr]
    exact
      { plan := hplan
        words := hwords
        keyValid := rfl
        underWay := fun h40 => absurd h40 (by decide)
        finished := fun _ => ⟨rfl, rfl⟩
        frame := h.frame }
  · have hcount : (t.ctr + 1).toNat = 4 + (n + 1) := by bv_omega
    rw [expandWord_of_lt hc (by omega)]
    exact
      { plan := hplan
        words := hwords
        keyValid := h.keyValid.trans (decide_eq_decide.mpr (by omega))
        underWay := fun _ => ⟨hp, hcount⟩
        finished := fun h40 => by omega
        frame := h.frame }

/-- From the accepting edge of a LOAD_KEY on, the key expands edge by edge up to its end. -/
theorem loadingKey_run {s : State} {len : BitVec 4} {keyIn dataIn : BitVec 128} {rest : List HostAction}
    (hp : s.phase = .idle) (hs : s.script = .offer (encode (.loadKey len keyIn dataIn)) :: rest)
    (hrest : NoReset rest) {j : Nat} (hj : j ≤ 40) :
    ∃ t, runFor (1 + j) s = .next t ∧ LoadingKey (bytesOf keyIn) s j t := by
  induction j with
  | zero =>
    obtain ⟨t, ht, hload⟩ := loadingKey_accepted hp hs hrest
    exact ⟨t, runFor_snoc (runFor_zero s) ht, hload⟩
  | succ j ih =>
    obtain ⟨t, ht, hload⟩ := ih (by omega)
    obtain ⟨u, hu, hnext⟩ := hload.step (by omega)
    exact ⟨u, runFor_snoc ht hu, hnext⟩

/-- The engine is busy exactly while words are missing (42_key_schedule.md R121). -/
theorem LoadingKey.busy {K : Block} {s t : State} {n : Nat} (h : LoadingKey K s n t) (hn : n ≤ 40) :
    t.busy = decide (n < 40) := by
  obtain hlt | rfl : n < 40 ∨ n = 40 := by omega
  · simp [State.busy, (h.underWay hlt).1, hlt]
  · simp [State.busy, (h.finished rfl).1]

/-- The finished store is the complete expansion (42_key_schedule.md R126). -/
theorem LoadingKey.isExpansion {K : Block} {s t : State} (h : LoadingKey K s 40 t) : IsExpansion K t.W := by
  rw [h.words.eq_expand]
  exact expand_isExpansion K

/-- Settles O50: what `LoadingKey` says of the state `j` edges after the accepting edge. -/
theorem loadKeyRun : Obligations.LoadKeyRun := by
  intro s len keyIn dataIn rest j hp hs hrest hj
  obtain ⟨t, ht, hload⟩ := loadingKey_run hp hs hrest hj
  obtain ⟨hS, hdout, houtValid, herr, herrCode⟩ := hload.frame
  exact ⟨t, ht, hload.words, fun h40 => (h40 ▸ hload).isExpansion, hload.keyValid, hload.busy hj, hS, hdout,
    houtValid, herr, herrCode, hload.underWay, hload.finished⟩

end Sys2Proof.Machine
end

section
/-! PROOF. The four round transforms byte by byte and the rounds they make up (43_round_pipeline.md R140 to
R145). -/

namespace Sys2Proof.Machine

/-! ### Constant blocks -/

/-- Every byte of a constant block is that byte. -/
theorem get_ofBytes_const (v : Byte) (r c : Fin 4) : (Block.ofBytes fun _ => v).get r c = v :=
  block_get_ofFn _ r c

/-- The zero block is the constant block of 0x00. -/
theorem zero_eq_ofBytes : Block.zero = Block.ofBytes fun _ => 0 := rfl

/-! ### SubBytes -/

@[simp] theorem get_subBytes (X : Block) (r c : Fin 4) : (subBytes X).get r c = sbox (X.get r c) :=
  block_get_ofFn _ r c

/-- The S-box has no fixed point (43_round_pipeline.md R140). -/
theorem sbox_ne_self : ∀ b : Byte, sbox b ≠ b := by decide +kernel

/-- Settles O14: bytewise the S-box, which has no fixed point. -/
theorem subBytesRule : Obligations.SubBytesRule := by
  refine ⟨get_subBytes, fun X r c => ?unchanged, by decide +kernel⟩
  case unchanged =>
    rw [get_subBytes]
    exact sbox_ne_self _

/-! ### ShiftRows -/

@[simp] theorem get_shiftRows (X : Block) (r c : Fin 4) : (shiftRows X).get r c = X.get (r + c) c :=
  block_get_ofFn _ r c

/-- Two shifts of column 2 move it by four rows, that is by none (43_round_pipeline.md R141). -/
theorem get_shiftRows_twice_two (X : Block) (r : Fin 4) :
    (shiftRows (shiftRows X)).get r 2 = X.get r 2 := by
  have hfour : r + 2 + 2 = r := by omega
  rw [get_shiftRows, get_shiftRows, hfour]

/-- Settles O15: a shift reads row `r + c`, which for column 0 is row `r`. -/
theorem shiftRowsRule : Obligations.ShiftRowsRule := by
  refine ⟨get_shiftRows, fun X r => ⟨?columnZero, get_shiftRows_twice_two X r⟩, fun v => ?constant,
    by decide +kernel⟩
  case columnZero => rw [get_shiftRows, add_zero]
  case constant =>
    refine block_ext fun r c => ?_
    rw [get_shiftRows, get_ofBytes_const, get_ofBytes_const]

/-! ### MixColumns -/

section

variable (X : Block) (r j : Fin 4)

theorem get_mixColumns : (mixColumns X).get r j =
    gmul (X.get r 0) (mixMatrix.get j 0) ^^^ gmul (X.get r 1) (mixMatrix.get j 1) ^^^
      gmul (X.get r 2) (mixMatrix.get j 2) ^^^ gmul (X.get r 3) (mixMatrix.get j 3) :=
  block_get_ofFn _ r j

/-! The four entries of a mixed row, with the row of `M` written out (43_round_pipeline.md R142). -/

theorem get_mixColumns_zero : (mixColumns X).get r 0 =
    gmul (X.get r 0) 2 ^^^ gmul (X.get r 1) 3 ^^^ X.get r 2 ^^^ X.get r 3 := by
  rw [← gmul_one_right (X.get r 2), ← gmul_one_right (X.get r 3)]
  exact get_mixColumns X r 0

theorem get_mixColumns_one : (mixColumns X).get r 1 =
    X.get r 0 ^^^ gmul (X.get r 1) 2 ^^^ gmul (X.get r 2) 3 ^^^ X.get r 3 := by
  rw [← gmul_one_right (X.get r 0), ← gmul_one_right (X.get r 3)]
  exact get_mixColumns X r 1

theorem get_mixColumns_two : (mixColumns X).get r 2 =
    X.get r 0 ^^^ X.get r 1 ^^^ gmul (X.get r 2) 2 ^^^ gmul (X.get r 3) 3 := by
  rw [← gmul_one_right (X.get r 0), ← gmul_one_right (X.get r 1)]
  exact get_mixColumns X r 2

theorem get_mixColumns_three : (mixColumns X).get r 3 =
    gmul (X.get r 0) 3 ^^^ X.get r 1 ^^^ X.get r 2 ^^^ gmul (X.get r 3) 2 := by
  rw [← gmul_one_right (X.get r 1), ← gmul_one_right (X.get r 2)]
  exact get_mixColumns X r 3

end

/-- Rows are mixed independently (43_round_pipeline.md R142). -/
theorem row_mixColumns_congr {X Y : Block} {r : Fin 4} (h : X.row r = Y.row r) :
    (mixColumns X).row r = (mixColumns Y).row r := by
  have hget : X.get r = Y.get r := congrArg Word.get h
  refine word_ext fun j => ?_
  change (mixColumns X).get r j = (mixColumns Y).get r j
  rw [get_mixColumns, get_mixColumns, hget]

theorem gmul_xor_left (a b c : Byte) : gmul (a ^^^ b) c = gmul a c ^^^ gmul b c := by
  simp only [gmul_eq_gfMul, gfMul_xor_left]

theorem gmul_xor_right (a b c : Byte) : gmul a (b ^^^ c) = gmul a b ^^^ gmul a c := by
  simp only [gmul_eq_gfMul, gfMul_xor_right]

/-- MixColumns is linear because the product is, term by term. -/
theorem mixColumns_xorBlock (X Y : Block) :
    mixColumns (xorBlock X Y) = xorBlock (mixColumns X) (mixColumns Y) := by
  refine block_ext fun r j => ?_
  simp only [get_xorBlock, get_mixColumns, gmul_xor_left]
  ac_rfl

/-- Every row of the matrix `M` sums to 1. -/
theorem mixMatrix_row_sum (j : Fin 4) :
    mixMatrix.get j 0 ^^^ mixMatrix.get j 1 ^^^ mixMatrix.get j 2 ^^^ mixMatrix.get j 3 = 1 := by
  revert j
  decide

/-- A row of four equal bytes, entry by entry. -/
theorem row_eq_of_equal_iff {X : Block} {r : Fin 4} {v : Byte} :
    X.row r = ⟨v, v, v, v⟩ ↔ ∀ c, X.get r c = v := by
  have hconst : ∀ c, Word.get ⟨v, v, v, v⟩ c = v := get_ofFn fun _ => v
  constructor
  · intro h c
    rw [Block.get, h, hconst]
  · exact fun h => word_ext fun c => (h c).trans (hconst c).symm

/-- A row of four equal bytes is unchanged: the byte is multiplied by the sum of a row of `M`. -/
theorem row_mixColumns_of_equal {X : Block} {r : Fin 4} {v : Byte} (h : X.row r = ⟨v, v, v, v⟩) :
    (mixColumns X).row r = ⟨v, v, v, v⟩ := by
  rw [row_eq_of_equal_iff] at h ⊢
  intro j
  simp only [get_mixColumns, h, ← gmul_xor_right, mixMatrix_row_sum, gmul_one_right]

/-- Settles O16: the `xtime` form is the entries of `M` read through the multipliers of R113, and the zero
block is four rows of equal bytes. -/
theorem mixColumnsRule : Obligations.MixColumnsRule := by
  refine ⟨get_mixColumns, fun X r => ⟨?_, ?_, ?_, ?_⟩, fun _ _ _ => row_mixColumns_congr,
    mixColumns_xorBlock, fun _ _ _ => row_mixColumns_of_equal, ?zero, by decide +kernel⟩
  · rw [get_mixColumns_zero, gmul_two_right, gmul_three_right]
  · rw [get_mixColumns_one, gmul_two_right, gmul_three_right]
  · rw [get_mixColumns_two, gmul_two_right, gmul_three_right]
  · rw [get_mixColumns_three, gmul_two_right, gmul_three_right]
  case zero =>
    have hrow : ∀ r, Block.zero.row r = ⟨0, 0, 0, 0⟩ := fun r =>
      row_eq_of_equal_iff.mpr (get_ofBytes_const 0 r)
    exact block_ext_rows fun r => (row_mixColumns_of_equal (hrow r)).trans (hrow r).symm

/-! ### AddRoundKey -/

/-- A zero round key changes nothing (43_round_pipeline.md R143). -/
theorem addRoundKey_of_zero {W : KeyStore} {n : Fin 11} (h : roundKey W n = Block.zero) (X : Block) :
    addRoundKey W X n = X := by
  refine block_ext fun r c => ?_
  rw [addRoundKey, h, zero_eq_ofBytes, get_xorBlock, get_ofBytes_const]
  exact BitVec.xor_zero

/-- Adding the same round key twice restores the block (43_round_pipeline.md R143). -/
theorem addRoundKey_twice (W : KeyStore) (X : Block) (n : Fin 11) :
    addRoundKey W (addRoundKey W X n) n = X := by
  refine block_ext fun r c => ?_
  rw [get_addRoundKey, get_addRoundKey, BitVec.xor_assoc, BitVec.xor_self, BitVec.xor_zero]

/-- Settles O17: a row of the round key is a word of the store. -/
theorem addRoundKeyRule : Obligations.AddRoundKeyRule := by
  refine ⟨fun W X n r c => ⟨?word, get_addRoundKey W X n r c⟩, fun W X n h => addRoundKey_of_zero h X,
    addRoundKey_twice, by decide +kernel⟩
  case word => rw [Block.get, row_roundKey]

/-! ### The rounds -/

/-- Settles O18: the compositions are the definitions, and the worked examples are evaluated. -/
theorem roundComposition : Obligations.RoundComposition :=
  ⟨fun _ _ _ => rfl, fun _ _ => rfl, by decide +kernel, by decide +kernel, by decide +kernel,
    by decide +kernel, by decide +kernel⟩

end Sys2Proof.Machine
end

section
/-! PROOF. The engine against the usual presentation (43_round_pipeline.md R151): `textbookState` carries each
transform over, and so the rounds. -/

namespace Sys2Proof.Machine

/-- `s[row][col]` is `X[col][row]`: byte `row + 4*col` of the block (00_scope.md R9, R12). -/
@[simp] theorem textbookState_apply (B : Block) (row col : Fin 4) :
    textbookState B row col = B.get col row := by
  rw [← byte_rowMajor, textbookState]
  simp only [Nat.add_comm]

theorem textbookState_subBytes (X : Block) :
    textbookState (subBytes X) = textbookSubBytes (textbookState X) := by
  funext row col
  simp only [textbookSubBytes, textbookState_apply, get_subBytes]

theorem textbookState_shiftRows (X : Block) :
    textbookState (shiftRows X) = textbookShiftRows (textbookState X) := by
  funext row col
  simp only [textbookShiftRows, textbookState_apply, get_shiftRows]

theorem textbookState_mixColumns (X : Block) :
    textbookState (mixColumns X) = textbookMixColumns (textbookState X) := by
  funext row col
  match row with
  | 0 => simp only [textbookMixColumns, textbookState_apply, get_mixColumns_zero, gmul_eq_gfMul]
  | 1 => simp only [textbookMixColumns, textbookState_apply, get_mixColumns_one, gmul_eq_gfMul]
  | 2 => simp only [textbookMixColumns, textbookState_apply, get_mixColumns_two, gmul_eq_gfMul]
  | 3 => simp only [textbookMixColumns, textbookState_apply, get_mixColumns_three, gmul_eq_gfMul]

theorem textbookState_addRoundKey (W : KeyStore) (X : Block) (n : Fin 11) :
    textbookState (addRoundKey W X n) = textbookAddRoundKey W n (textbookState X) := by
  funext row col
  simp only [textbookAddRoundKey, textbookState_apply, get_addRoundKey]

theorem textbookState_fullRound (W : KeyStore) (X : Block) (n : Fin 11) :
    textbookState (fullRound W X n) = textbookRound W (textbookState X) n := by
  rw [fullRound, textbookState_addRoundKey, textbookState_mixColumns, textbookState_shiftRows,
    textbookState_subBytes, textbookRound]

theorem textbookState_finalRound (W : KeyStore) (X : Block) :
    textbookState (finalRound W X) =
      textbookAddRoundKey W 10 (textbookShiftRows (textbookSubBytes (textbookState X))) := by
  rw [finalRound, textbookState_addRoundKey, textbookState_shiftRows, textbookState_subBytes]

/-- The ciphertext carried over: the fold over the rounds is by `textbookState_fullRound`. -/
theorem textbookState_encryptWith (W : KeyStore) (P : Block) :
    textbookState (encryptWith W P) = textbookCipher W (textbookState P) := by
  rw [encryptWith, textbookState_finalRound, textbookCipher, ← textbookState_addRoundKey,
    List.foldl_hom textbookState fun X n => (textbookState_fullRound W X n).symm]

/-- Settles O19, transform by transform, then the whole cipher. -/
theorem agreesWithTheTextbookCipher : Obligations.AgreesWithTheTextbookCipher :=
  ⟨fun B r c => textbookState_apply B c r, textbookState_shiftRows, textbookState_mixColumns,
    textbookState_addRoundKey, textbookState_encryptWith⟩

end Sys2Proof.Machine
end

section
/-! PROOF. The edges of an encryption (43_round_pipeline.md R146 to R148). -/

namespace Sys2Proof.Machine

/-! ### The accepting edge -/

/-- A block under round key 0: byte `4*r + c` is keyed by byte `c` of word `r` (43_round_pipeline.md R146). -/
theorem get_addRoundKey_zero (W : KeyStore) (P : Block) (r c : Fin 4) :
    (addRoundKey W P 0).get r c =
      P.byte ⟨4 * r.val + c.val, by omega⟩ ^^^ (W[r.val]'(by omega)).get c := by
  simp only [byte_rowMajor, get_addRoundKey, Fin.val_zero, Nat.mul_zero, Nat.zero_add]

/-- Settles O24: the two accepting edges of `acceptBlock`, and AddRoundKey with a zero round key. -/
theorem encryptAcceptingEdge : Obligations.EncryptAcceptingEdge := by
  refine ⟨fun s len keyIn dataIn hk => ⟨addRoundKey s.W (bytesOf dataIn) 0, ?keyed,
    get_addRoundKey_zero s.W (bytesOf dataIn)⟩, fun s len keyIn dataIn hk => ?noKey, fun W hzero => ?zero⟩
  case keyed => rw [exec_encrypt, acceptBlock_clear_of_key _ hk]; rfl
  case noKey => rw [exec_encrypt, acceptBlock_clear_of_noKey _ hk]; rfl
  case zero => rw [addRoundKey_of_zero hzero]; decide

/-! ### The ENC edge -/

/-- Before round 10 a step in ENC without reset is a full round, whatever the host offers. -/
theorem step_of_enc_of_lt {s : State} (hp : s.phase = .enc) (hr : s.pins.rst = false)
    (h : 1 ≤ s.ctr.toNat ∧ s.ctr.toNat < 10) :
    step s = .next (record s
      { s with S := fullRound s.W s.S ⟨s.ctr.toNat, by omega⟩, ctr := s.ctr + 1 }) :=
  step_of_edge ((edge_of_enc hr hp).trans (encEdge_of_lt h))

/-- At round 10 a step in ENC without reset is the final round, and completes. -/
theorem step_of_enc_last {s : State} (hp : s.phase = .enc) (hr : s.pins.rst = false)
    (h : s.ctr.toNat = 10) :
    step s = .next (record s (completeBlock (finalRound s.W s.S) { s with S := finalRound s.W s.S })) :=
  step_of_edge ((edge_of_enc hr hp).trans (encEdge_last h))

/-- Settles O36: a full round for each `ctr` below 10, then the final round, after which the status bits are
those of IDLE with a valid output. -/
theorem encryptionEdge : Obligations.EncryptionEdge := by
  refine fun s hp hr => ⟨fun r hctr hone hten => ?round, fun hten => ⟨step_of_enc_last hp hr hten, ?status⟩⟩
  case round =>
    have hround : (⟨s.ctr.toNat, by omega⟩ : Fin 11) = r := Fin.ext hctr
    rw [step_of_enc_of_lt hp hr (by omega), hround]
  case status =>
    intro t ht
    rw [step_of_enc_last hp hr hten] at ht
    cases ht
    exact ⟨rfl, status_bit_busy _ _, status_bit_outValid _ _⟩

end Sys2Proof.Machine
end

section
/-! PROOF. The block driver: the padding rule and ENCRYPT_PAD's accepting edge (44_block_driver.md R170,
R171). -/

namespace Sys2Proof.Machine

/-! ### The padding rule -/

/-- Between 1 and 16 bytes are added (44_block_driver.md R170). -/
theorem padCount_bounds (len : BitVec 4) : 1 ≤ padCount len ∧ padCount len ≤ 16 := by
  unfold padCount
  omega

/-- An empty chunk pads to sixteen 0x10, whatever the block holds (44_block_driver.md R170). -/
theorem pad_zero (D : Block) : pad D 0 = Block.ofBytes fun _ => 0x10 := by
  refine block_ext_bytes fun k => ?_
  rw [byte_pad, if_neg (by simp), byte_ofBytes]
  rfl

/-- A chunk of 15 bytes ends in one 0x01 (44_block_driver.md R170). -/
theorem byte_pad_fifteen (D : Block) : (pad D 15).byte 15 = 0x01 := by
  rw [byte_pad, if_neg (by decide)]
  rfl

/-- A chunk of one byte pads as the constant block of that byte does: no other byte is read. -/
theorem pad_one_eq_of_byte_zero {D : Block} {b : Byte} (h : D.byte 0 = b) :
    pad D 1 = pad (Block.ofBytes fun _ => b) 1 := by
  refine pad_eq_of_bytes_lt fun k hk => ?_
  have hlt : k.val < 1 := hk
  have hk0 : k = 0 := by omega
  rw [hk0, h, byte_ofBytes]

/-- Settles O7: bytewise `byte_pad`; the worked example reads byte 0 alone, so one block stands for all. -/
theorem padRule : Obligations.PadRule := by
  refine ⟨byte_pad, padCount_bounds, pad_zero, byte_pad_fifteen, fun _ _ _ => pad_eq_of_bytes_lt,
    fun D hD => ?worked⟩
  case worked =>
    rw [pad_one_eq_of_byte_zero hD]
    decide +kernel

/-! ### The accepting edge of ENCRYPT_PAD -/

/-- A padded chunk under round key 0: each byte before `len` is the chunk's, each other one the pad count
(44_block_driver.md R171). -/
theorem get_addRoundKey_pad (W : KeyStore) (D : Block) (len : BitVec 4) (r c : Fin 4) :
    (addRoundKey W (pad D len) 0).get r c =
      (if 4 * r.val + c.val < len.toNat then D.byte ⟨4 * r.val + c.val, by omega⟩
        else BitVec.ofNat 8 (padCount len)) ^^^ (W[r.val]'(by omega)).get c := by
  rw [get_addRoundKey_zero, byte_pad]

/-- Settles O25: the two accepting edges of `acceptBlock` on the padded chunk; an empty chunk is the padding
block, so its ciphertext is one fixed value. -/
theorem encryptPadAcceptingEdge : Obligations.EncryptPadAcceptingEdge := by
  refine ⟨fun s len keyIn dataIn hk => ⟨addRoundKey s.W (pad (bytesOf dataIn) len) 0, ?keyed,
    get_addRoundKey_pad s.W (bytesOf dataIn) len⟩, fun s len keyIn dataIn hk => ?noKey,
    fun dataIn => ?emptyChunk⟩
  case keyed => rw [exec_encryptPad, acceptBlock_clear_of_key _ hk]; rfl
  case noKey => rw [exec_encryptPad, acceptBlock_clear_of_noKey _ hk]; rfl
  case emptyChunk =>
    rw [pad_zero]
    decide +kernel

end Sys2Proof.Machine
end

section
/-! PROOF. Exceptions (60_exceptions.md R190 to R196): a rejected command raises its one error and writes
nothing else, at its accepting edge; and an edge in IDLE with nothing offered (R204). -/

namespace Sys2Proof.Machine

/-! ### The accepting edge by the command's rejection code -/

/-- The code an accepting edge leaves is the one its command is rejected with (60_exceptions.md R196). -/
theorem exec_errCode {i : Instr} {s u : State} (h : exec i s = .next u) :
    u.errCode = rejectionCode i s.keyValid := congrArg Prod.snd (exec_error h)

/-- An accepting edge leaves `err` at 1 exactly when its command has a rejection code (10_state.md R30). -/
theorem exec_err_iff {i : Instr} {s u : State} (h : exec i s = .next u) :
    u.err = true ↔ rejectionCode i s.keyValid ≠ 0 := by
  have herr : u.err = decide (rejectionCode i s.keyValid ≠ 0) := congrArg Prod.fst (exec_error h)
  rw [herr, decide_eq_true_iff]

/-- A rejected command writes the three outcome registers and nothing else (60_exceptions.md R194): what
starts work leaves code 0, so its edge is the one that raises an error. -/
theorem exec_of_rejected {i : Instr} {s : State} (h : rejectionCode i s.keyValid ≠ 0) :
    exec i s = .next { s with outValid := false, err := true, errCode := rejectionCode i s.keyValid } := by
  obtain ⟨K, he⟩ | ⟨-, P, he⟩ | ⟨code, -, he⟩ := exec_cases i s
  · exact absurd (exec_errCode he).symm h
  · exact absurd (exec_errCode he).symm h
  · rw [he, ← exec_errCode he]
    rfl

/-- A command that is not rejected leaves the engine busy (60_exceptions.md R196). -/
theorem exec_of_not_rejected {i : Instr} {s : State} (h : rejectionCode i s.keyValid = 0) :
    ∃ t, exec i s = .next t ∧ t.busy = true := by
  obtain ⟨K, he⟩ | ⟨-, P, he⟩ | ⟨code, -, he⟩ := exec_cases i s
  · exact ⟨_, he, rfl⟩
  · exact ⟨_, he, rfl⟩
  · exact absurd h ((exec_err_iff he).mp rfl)

/-- Settles O28: the two edges that accept nothing, and the accepting edge split by the rejection code. -/
theorem rejectionPriority : Obligations.RejectionPriority := by
  refine ⟨fun s hr => ⟨accepts_of_rst hr, edge_of_rst hr⟩, fun s => accepts_of_busy, fun i s => ?accepted⟩
  case accepted =>
    by_cases hcode : rejectionCode i s.keyValid = 0
    · obtain ⟨t, ht, hbusy⟩ := exec_of_not_rejected hcode
      exact ⟨t, ht, exec_errCode ht, exec_err_iff ht,
        fun herr => absurd hcode ((exec_err_iff ht).mp herr), fun _ => hbusy⟩
    · have ht := exec_of_rejected hcode
      exact ⟨_, ht, exec_errCode ht, exec_err_iff ht, fun _ => rfl, fun hnone => by cases hnone⟩

/-- Settles O26: RSVD has its code in every state; at reset the status is that of one known state. -/
theorem reservedCommandRaisesIllegalOp : Obligations.ReservedCommandRaisesIllegalOp := by
  refine ⟨fun s len keyIn dataIn => exec_rsvd len keyIn dataIn s, fun len keyIn dataIn t ht => ?status⟩
  case status =>
    rw [exec_rsvd] at ht
    cases ht
    decide

/-- Settles O27 from the accepting edges of the two commands without a key, the reset value, and the
invariant's clause on an expansion under way. -/
theorem noKeyRejectsEncryption : Obligations.NoKeyRejectsEncryption := by
  obtain ⟨-, hencrypt, -⟩ := encryptAcceptingEdge
  obtain ⟨-, hencryptPad, -⟩ := encryptPadAcceptingEdge
  refine ⟨fun s len keyIn dataIn hk =>
    ⟨hencrypt s len keyIn dataIn hk, hencryptPad s len keyIn dataIn hk⟩, reset_keyValid, fun s hs hp => ?_⟩
  obtain ⟨hkeyValid, -, -⟩ := hs.expanding hp
  exact hkeyValid

/-! ### The step in IDLE -/

/-- Settles O33: a quiet edge keeps the registers, and it neither accepts nor completes, so the record
stands too. -/
theorem idleChangesNothing : Obligations.IdleChangesNothing := by
  intro s hp hr hv
  have ha : s.accepts = false := (accepts_of_idle hr hp).trans hv
  have hc : completes s s = false := completes_of_not_enc (by rw [hp]; decide)
  rw [step_of_edge (edge_of_quiet hr hv hp), record_quiet hr ha hc]

/-- In IDLE the command first on the host's plan takes its accepting edge (10_state.md R32). -/
theorem step_of_offer {s u : State} {i : Instr} {rest : List HostAction} (hp : s.phase = .idle)
    (hs : s.script = .offer (encode i) :: rest) (h : exec i s = .next u) :
    step s = .next (record s u) := by
  have hpins := pins_of_offer hs
  refine step_of_edge ?_
  rw [edge_of_accept (by rw [hpins]; rfl) (by rw [hpins]; rfl) hp, hpins, offeringPins_command,
    decode_encode, h]

/-- Settles O57: the offer's accepting edge is that of a rejected command. -/
theorem rejectedCommandTakesOneEdge : Obligations.RejectedCommandTakesOneEdge := by
  intro s i rest hp hs hcode
  have hrun := runFor_snoc (runFor_zero s) (step_of_offer hp hs (exec_of_rejected hcode))
  exact ⟨_, hrun, rfl, rfl, rfl, hp, by simp [State.cmdReady, hp], planAfter_of_offer_idle hs hp,
    rfl, rfl, rfl, rfl, rfl⟩

end Sys2Proof.Machine
end

section
/-! PROOF. Reset values and back-pressure (70_reset_and_hazards.md R214, R216): the registers and the ports
after a reset, and an edge in a busy phase against what the host offers there. -/

namespace Sys2Proof.Machine

/-! ### The busy edges read no plan -/

section

variable {s u : State} (plan : List HostAction)

/-- The KEYEXP edge neither reads nor writes the host's plan. -/
theorem keyexpEdge_withScript (h : keyexpEdge s = .next u) :
    keyexpEdge { s with script := plan } = .next { u with script := plan } := by
  obtain ⟨⟨hlow, -⟩, ⟨hlt, rfl⟩ | ⟨hlast, rfl⟩⟩ := keyexpEdge_cases h
  · exact keyexpEdge_of_lt (s := { s with script := plan }) ⟨hlow, hlt⟩
  · exact keyexpEdge_last (s := { s with script := plan }) hlast

/-- The ENC edge neither reads nor writes the host's plan. -/
theorem encEdge_withScript (h : encEdge s = .next u) :
    encEdge { s with script := plan } = .next { u with script := plan } := by
  obtain ⟨hround, rfl⟩ | ⟨hlast, rfl⟩ := encEdge_cases h
  · exact encEdge_of_lt (s := { s with script := plan }) hround
  · exact encEdge_last (s := { s with script := plan }) hlast

/-- In a busy phase two plans that both drive `rst` = 0 take the registers to the same values
(60_exceptions.md R196). -/
theorem edge_withScript_of_busy (hp : s.phase ≠ .idle) (hr : s.pins.rst = false)
    (hr' : (State.pins { s with script := plan }).rst = false) (h : edge s = .next u) :
    edge { s with script := plan } = .next { u with script := plan } := by
  obtain ⟨hrst, -⟩ | ⟨-, hidle, -⟩ | ⟨-, hidle, -⟩ | ⟨-, hkeyexp, hedge⟩ | ⟨-, henc, hedge⟩ := edge_cases h
  · exact absurd hrst (Bool.eq_false_iff.mp hr)
  · exact absurd hidle hp
  · exact absurd hidle hp
  · exact (edge_of_keyexp hr' hkeyexp).trans (keyexpEdge_withScript plan hedge)
  · exact (edge_of_enc hr' henc).trans (encEdge_withScript plan hedge)

end

/-! ### The handshake -/

/-- A command is accepted exactly when `cmd_ready` and `cmd_valid` are both 1 (10_state.md R32). -/
theorem accepts_eq_ready_and_valid (s : State) : s.accepts = (s.cmdReady s.pins.rst && s.pins.cmdValid) := by
  rw [State.accepts, State.cmdReady]
  ac_rfl

/-- Settles O34: the busy phases' own edges, the handshake, and the plan's head while busy. -/
theorem busyEdgeIgnoresTheOffer : Obligations.BusyEdgeIgnoresTheOffer :=
  ⟨fun _ _ plan => edge_withScript_of_busy plan,
    fun s hready => by rw [accepts_eq_ready_and_valid, hready, Bool.false_and],
    fun _ _ _ hp hs => planAfter_of_offer_busy hs hp⟩

/-! ### The reset values -/

theorem byte_zero (k : Fin 16) : Block.zero.byte k = 0 := by
  rw [zero_eq_ofBytes, byte_ofBytes]

theorem getElem_reset_W {i : Nat} (h : i < 44) : State.reset.W[i] = Word.zero := by
  simp only [reset_W, Vector.getElem_replicate]

/-- After a reset the debug port shows 0 at every index, in the key store and past it
(60_exceptions.md R200). -/
theorem rkWord_reset_W (rkIdx : BitVec 6) : rkWord State.reset.W rkIdx = 0 := by
  by_cases h : rkIdx.toNat < 44
  · rw [rkWord_of_lt _ rfl h, getElem_reset_W]
    rfl
  · exact rkWord_of_gt _ (by omega)

theorem outputs_reset {p : Pins} (hr : p.rst = false) : State.reset.outputs p = ⟨true, 0x40, 0, 0⟩ := by
  have hstatus : State.reset.status false = 0x40 := by decide
  have hdout : wordOf State.reset.dout = 0 := by decide
  rw [State.outputs, hr, hstatus, hdout, rkWord_reset_W]
  rfl

/-- Settles O31: the key store and the two blocks element by element, and the ports at every `rk_idx`. -/
theorem resetValues : Obligations.ResetValues :=
  ⟨⟨reset_phase, reset_ctr, fun _ => getElem_reset_W, reset_keyValid, byte_zero, byte_zero,
    reset_outValid, reset_err, reset_errCode⟩, fun _ => outputs_reset⟩

end Sys2Proof.Machine
end

section
/-! PROOF. The invariant of every reachable state (10_state.md R25, R27; 60_exceptions.md R191): it holds at
reset, each kind of edge keeps it, and under it every step answers a next state. -/

namespace Sys2Proof.Machine

/-! ### The invariant at reset and at an accepting edge -/

/-- The rejections on record have the codes of 60_exceptions.md R191. -/
def State.RejectionsLegal (s : State) : Prop :=
  ∀ r ∈ s.rejectLog, r.code = codeIllegalOp ∨ r.code = codeNoKey

theorem inv_resetRegisters {s : State} (h : s.RejectionsLegal) : (resetRegisters s).Inv where
  sequencer := rfl
  errAgrees := .inl ⟨rfl, rfl⟩
  expanding hp := by cases hp
  encrypting hp := by cases hp
  keyed hk := by cases hk
  partlyKeyed hp := by cases hp
  output ho := by cases ho
  rejections := h

/-- Settles O47: the reset state is what a reset edge makes of itself. -/
theorem invAtReset : Obligations.InvAtReset :=
  inv_resetRegisters (s := State.reset) fun r hr => by cases hr

/-- The common clear keeps the invariant in every phase. -/
theorem State.Inv.clearOutcome {s : State} (h : s.Inv) : (Machine.clearOutcome s).Inv where
  sequencer := h.sequencer
  errAgrees := .inl ⟨rfl, rfl⟩
  expanding hp := ⟨(h.expanding hp).1, rfl, rfl⟩
  encrypting hp := ⟨(h.encrypting hp).1, rfl, rfl⟩
  keyed := h.keyed
  partlyKeyed := h.partlyKeyed
  output ho := by cases ho
  rejections := h.rejections

theorem State.Inv.startExpansion {s : State} (h : s.Inv) (K : Block) (ho : s.outValid = false)
    (he : s.err = false) : (Machine.startExpansion K s).Inv where
  sequencer := (by decide : 4 ≤ (4#6).toNat ∧ (4#6).toNat ≤ 43)
  errAgrees := h.errAgrees
  expanding _ := ⟨rfl, ho, he⟩
  encrypting hp := by cases hp
  keyed hk := by cases hk
  partlyKeyed _ := followsRecurrence_four _
  output hv := absurd (ho.symm.trans hv) Bool.false_ne_true
  rejections := h.rejections

theorem State.Inv.startBlock {s : State} (h : s.Inv) (P : Block) (hk : s.keyValid = true)
    (ho : s.outValid = false) (he : s.err = false) : (Machine.startBlock P s).Inv where
  sequencer := (by decide : 1 ≤ (1#6).toNat ∧ (1#6).toNat ≤ 10)
  errAgrees := h.errAgrees
  expanding hp := by cases hp
  encrypting _ := ⟨hk, ho, he⟩
  keyed := h.keyed
  partlyKeyed hp := by cases hp
  output hv := absurd (ho.symm.trans hv) Bool.false_ne_true
  rejections := h.rejections

theorem State.Inv.raiseError {s : State} (h : s.Inv) {code : BitVec 2}
    (hcode : code = codeIllegalOp ∨ code = codeNoKey) (hp : s.phase = .idle) (ho : s.outValid = false) :
    (Machine.raiseError code s).Inv where
  sequencer := h.sequencer
  errAgrees := .inr ⟨rfl, hcode⟩
  expanding hk := absurd (hp.symm.trans hk) (by decide)
  encrypting hk := absurd (hp.symm.trans hk) (by decide)
  keyed := h.keyed
  partlyKeyed := h.partlyKeyed
  output hv := absurd (ho.symm.trans hv) Bool.false_ne_true
  rejections := h.rejections

/-- An accepting edge in IDLE keeps the invariant, whatever the command. -/
theorem State.Inv.exec {s u : State} (h : s.Inv) (hp : s.phase = .idle) {i : Instr}
    (he : Machine.exec i s = .next u) : u.Inv := by
  obtain ⟨K, hK⟩ | ⟨hk, P, hP⟩ | ⟨code, hcode, hc⟩ := exec_cases i s
  · rw [hK] at he; cases he; exact h.clearOutcome.startExpansion K rfl rfl
  · rw [hP] at he; cases he; exact h.clearOutcome.startBlock P hk rfl rfl
  · rw [hc] at he; cases he; exact h.clearOutcome.raiseError hcode hp rfl

/-! ### The invariant at the edges of a busy phase -/

section

variable {s : State} (h : s.Inv)

include h

/-- A KEYEXP edge before the last writes the word `ctr` by the recurrence (42_key_schedule.md R121). -/
theorem State.Inv.expand (hp : s.phase = .keyexp) (hc : 4 ≤ s.ctr.toNat ∧ s.ctr.toNat < 44)
    (hne : s.ctr ≠ 43#6) :
    ({ s with W := extendStore s.W s.ctr.toNat hc, ctr := s.ctr + 1 } : State).Inv := by
  obtain ⟨hk, ho, he⟩ := h.expanding hp
  have hctr : (s.ctr + 1).toNat = s.ctr.toNat + 1 := by bv_omega
  exact
    { sequencer := by
        have hle : s.ctr.toNat ≠ 43 := fun h43 => hne (BitVec.eq_of_toNat_eq h43)
        simp only [State.SequencerLegal, hp, hctr]
        omega
      errAgrees := h.errAgrees
      expanding := h.expanding
      encrypting := h.encrypting
      keyed := fun hv => absurd (hk.symm.trans hv) Bool.false_ne_true
      partlyKeyed := fun _ => by simpa only [hctr] using (h.partlyKeyed hp).extend hc
      output := fun hv => absurd (ho.symm.trans hv) Bool.false_ne_true
      rejections := h.rejections }

/-- The last KEYEXP edge writes word 43, so the key it makes valid is a complete expansion
(10_state.md R25). -/
theorem State.Inv.expandLast (hp : s.phase = .keyexp) (hc : 4 ≤ s.ctr.toNat ∧ s.ctr.toNat < 44)
    (hlast : s.ctr = 43#6) :
    ({ s with W := extendStore s.W s.ctr.toNat hc, keyValid := true, ctr := 0,
              phase := .idle } : State).Inv := by
  obtain ⟨-, ho, -⟩ := h.expanding hp
  have hnext : s.ctr.toNat + 1 = 44 := by rw [hlast]; rfl
  exact
    { sequencer := rfl
      errAgrees := h.errAgrees
      expanding := fun hq => by cases hq
      encrypting := fun hq => by cases hq
      keyed := fun _ => hnext ▸ (h.partlyKeyed hp).extend hc
      partlyKeyed := fun hq => by cases hq
      output := fun hv => absurd (ho.symm.trans hv) Bool.false_ne_true
      rejections := h.rejections }

/-- An ENC edge before the last counts the round, and writes `S` alone otherwise. -/
theorem State.Inv.round (hp : s.phase = .enc) (hc : 1 ≤ s.ctr.toNat ∧ s.ctr.toNat < 10) (X : Block) :
    ({ s with S := X, ctr := s.ctr + 1 } : State).Inv := by
  obtain ⟨-, ho, -⟩ := h.encrypting hp
  have hctr : (s.ctr + 1).toNat = s.ctr.toNat + 1 := by bv_omega
  exact
    { sequencer := by
        simp only [State.SequencerLegal, hp, hctr]
        omega
      errAgrees := h.errAgrees
      expanding := h.expanding
      encrypting := h.encrypting
      keyed := h.keyed
      partlyKeyed := fun hq => absurd (hp.symm.trans hq) (by decide)
      output := fun hv => absurd (ho.symm.trans hv) Bool.false_ne_true
      rejections := h.rejections }

/-- A completing edge leaves the final state in `S` and in `dout` (43_round_pipeline.md R148). -/
theorem State.Inv.completeBlock (hp : s.phase = .enc) (C : Block) :
    (Machine.completeBlock C { s with S := C }).Inv := by
  obtain ⟨hk, -, he⟩ := h.encrypting hp
  exact
    { sequencer := rfl
      errAgrees := h.errAgrees
      expanding := fun hq => by cases hq
      encrypting := fun hq => by cases hq
      keyed := h.keyed
      partlyKeyed := fun hq => by cases hq
      output := fun _ => ⟨rfl, hk, he, rfl⟩
      rejections := h.rejections }

end

/-! ### The step -/

/-- Each kind of edge keeps the invariant. -/
theorem EdgeTaken.inv {s u : State} (h : EdgeTaken s u) (hs : s.Inv) : u.Inv := by
  cases h with
  | reset hr => exact inv_resetRegisters hs.rejections
  | quiet hr hp hv => exact hs
  | accept hr hp hv he => exact hs.exec hp he
  | expand hr hp hc hne => exact hs.expand hp hc hne
  | expandLast hr hp hc hlast => exact hs.expandLast hp hc hlast
  | round hr hp hc hne => exact hs.round hp hc _
  | roundLast hr hp hlast => exact hs.completeBlock hp _

/-- The record keeps legal codes: the one it may add is that of a raised error, which the invariant after
the edge bounds. -/
theorem rejectionsLegal_record {s u : State} (hs : s.RejectionsLegal) (hu : u.Inv) :
    (record s u).RejectionsLegal := by
  intro r hr
  rw [record_rejectLog] at hr
  split at hr
  · cases hr
  · split at hr
    case isTrue hrej =>
      obtain ⟨-, herr⟩ := Bool.and_eq_true_iff.mp hrej
      obtain hold | hnew := List.mem_append.mp hr
      · exact hs r hold
      · obtain rfl := List.mem_singleton.mp hnew
        obtain ⟨hnone, -⟩ | ⟨-, hcode⟩ := hu.errAgrees
        · exact absurd (hnone.symm.trans herr) Bool.false_ne_true
        · exact hcode
    case isFalse => exact hs r hr

/-- Settles O48: the edge keeps the invariant of the registers, and the record its legal codes. -/
theorem stepKeepsInv : Obligations.StepKeepsInv := by
  intro s t hs h
  obtain ⟨u, hedge, rfl⟩ := step_cases h
  have hu := hedge.inv hs
  exact { hu with rejections := rejectionsLegal_record hs.rejections hu }

/-- Every command has a meaning: its accepting edge answers a next state. -/
theorem exec_total (i : Instr) (s : State) : ∃ u, exec i s = .next u := by
  obtain ⟨K, hK⟩ | ⟨-, P, hP⟩ | ⟨code, -, hc⟩ := exec_cases i s
  · exact ⟨_, hK⟩
  · exact ⟨_, hP⟩
  · exact ⟨_, hc⟩

/-- An edge from a legal pair answers a next state, whatever the host does. -/
theorem edge_total {s : State} (h : s.SequencerLegal) : ∃ u, edge s = .next u := by
  cases hr : s.pins.rst with
  | true => exact ⟨_, edge_of_rst hr⟩
  | false =>
    unfold State.SequencerLegal at h
    cases hp : s.phase with
    | idle =>
      cases hv : s.pins.cmdValid with
      | true => rw [edge_of_accept hr hv hp]; exact exec_total _ s
      | false => exact ⟨s, edge_of_quiet hr hv hp⟩
    | keyexp =>
      rw [hp] at h
      rw [edge_of_keyexp hr hp]
      obtain hlt | hlast : s.ctr.toNat < 43 ∨ s.ctr.toNat = 43 := by omega
      · exact ⟨_, keyexpEdge_of_lt ⟨h.1, hlt⟩⟩
      · exact ⟨_, keyexpEdge_last hlast⟩
    | enc =>
      rw [hp] at h
      rw [edge_of_enc hr hp]
      obtain hlt | hlast : s.ctr.toNat < 10 ∨ s.ctr.toNat = 10 := by omega
      · exact ⟨_, encEdge_of_lt ⟨h.1, hlt⟩⟩
      · exact ⟨_, encEdge_last hlast⟩

/-- Settles O49: the invariant's first clause is the legality of the pair. -/
theorem invStepsOn : Obligations.InvStepsOn := by
  intro s hs
  obtain ⟨u, hu⟩ := edge_total hs.sequencer
  exact ⟨_, step_of_edge hu⟩

theorem step_of_fault {s : State} {f : Fault} (h : edge s = .fault f) : step s = .fault f := by
  rw [step, h, afterEdge]

/-- Settles O38: in either phase the edge checks its range of `ctr` first. -/
theorem unreachablePairsStop : Obligations.UnreachablePairsStop := by
  rintro s hr (⟨hp, hctr⟩ | ⟨hp, hctr⟩)
  · refine step_of_fault ((edge_of_keyexp hr hp).trans ?_)
    exact dif_neg (by omega)
  · refine step_of_fault ((edge_of_enc hr hp).trans ?_)
    exact dif_neg (by omega)

end Sys2Proof.Machine
end

section
/-! PROOF. The command encoding (30_encoding.md R80 to R88): the fields of a command word, decoding against
encoding, the opcode table, and the lines of the assembly language. -/

namespace Sys2Proof.Machine

/-! ### Fields of a command word -/

theorem opField_append (len : BitVec 4) (op : BitVec 2) : opField (len ++ op) = op := by
  rw [opField, BitVec.extractLsb'_append_eq_of_add_le (by decide), BitVec.extractLsb'_eq_self]

theorem lenField_append (len : BitVec 4) (op : BitVec 2) : lenField (len ++ op) = len := by
  rw [lenField, BitVec.extractLsb'_append_eq_of_le (by decide), BitVec.extractLsb'_eq_self]

/-- The two fields are all of a command word (30_encoding.md R81). -/
theorem lenField_append_opField : ∀ cmd : BitVec 6, lenField cmd ++ opField cmd = cmd := by decide

/-- The four values of `op` decode to the four rows, with every operand kept (30_encoding.md R83). -/
theorem decode_cases (c : Command) :
    (opField c.cmd = 0b00#2 ∧ decode c = .loadKey (lenField c.cmd) c.keyIn c.dataIn) ∨
    (opField c.cmd = 0b01#2 ∧ decode c = .encrypt (lenField c.cmd) c.keyIn c.dataIn) ∨
    (opField c.cmd = 0b10#2 ∧ decode c = .encryptPad (lenField c.cmd) c.keyIn c.dataIn) ∨
    (opField c.cmd = 0b11#2 ∧ decode c = .rsvd (lenField c.cmd) c.keyIn c.dataIn) := by
  have hop : ∀ op : BitVec 2, op = 0b00#2 ∨ op = 0b01#2 ∨ op = 0b10#2 ∨ op = 0b11#2 := by decide
  simp only [decode]
  obtain h | h | h | h := hop (opField c.cmd)
  · exact .inl ⟨h, by rw [h]; rfl⟩
  · exact .inr (.inl ⟨h, by rw [h]; rfl⟩)
  · exact .inr (.inr (.inl ⟨h, by rw [h]; rfl⟩))
  · exact .inr (.inr (.inr ⟨h, by rw [h]; rfl⟩))

/-- Encoding what was decoded loses no bit of the triple (30_encoding.md R80): in each row the `op` put back
is the one that was read. -/
theorem encode_decode (c : Command) : encode (decode c) = c := by
  have hfields : encode (decode c) = ⟨lenField c.cmd ++ opField c.cmd, c.keyIn, c.dataIn⟩ := by
    obtain ⟨hop, hd⟩ | ⟨hop, hd⟩ | ⟨hop, hd⟩ | ⟨hop, hd⟩ := decode_cases c <;> (rw [hd, hop]; rfl)
  rw [hfields, lenField_append_opField]

/-- Settles O2, one direction each. -/
theorem decodeEncodeRoundTrip : Obligations.DecodeEncodeRoundTrip := ⟨decode_encode, encode_decode⟩

/-- A command word is covered by the row of its `op` and by no other (30_encoding.md R83: the masks keep `op`
alone). -/
theorem opcodeTable_filter_append : ∀ (len : BitVec 4) (op : BitVec 2),
    opcodeTable.filter (fun r => r.covers (len ++ op)) = [opcodeTable[op.toNat]'op.isLt] := by decide

theorem opcodeTable_filter_encode (i : Instr) :
    opcodeTable.filter (fun r => r.covers (encode i).cmd) = [i.row] := by
  rw [encode, opcodeTable_filter_append]
  cases i with
  | loadKey len k d => rfl
  | encrypt len k d => rfl
  | encryptPad len k d => rfl
  | rsvd len k d => rfl

/-- Settles O1: the fields, each row through `decode_encode`, and the table at the encoding of the decoded
command. -/
theorem decodeFollowsTheOpcodeMap : Obligations.DecodeFollowsTheOpcodeMap :=
  ⟨fun len op => ⟨opField_append len op, lenField_append len op⟩,
    fun len k d => ⟨decode_encode (.loadKey len k d), decode_encode (.encrypt len k d),
      decode_encode (.encryptPad len k d), decode_encode (.rsvd len k d)⟩,
    fun c => by simpa only [encode_decode] using opcodeTable_filter_encode (decode c)⟩

/-- Settles O3 by evaluation: nine fixed words. -/
theorem sampleWordsDecode : Obligations.SampleWordsDecode := by
  unfold Obligations.SampleWordsDecode
  decide

/-! ### Command lines -/

/-- `cmd = (len << 2) | op` as a number (30_encoding.md R87). -/
theorem append_op_eq_ofNat (len : Nat) (op : BitVec 2) :
    BitVec.ofNat 4 len ++ op = BitVec.ofNat 6 (len * 4 + op.toNat) := by
  apply BitVec.eq_of_toNat_eq
  rw [BitVec.toNat_append, ← Nat.shiftLeft_add_eq_or_of_lt op.isLt, Nat.shiftLeft_eq]
  simp only [BitVec.toNat_ofNat]
  omega

/-- The port value of a byte list holds its bytes, and 0x00 past them (30_encoding.md R87). -/
theorem byte_bytesOf_wordOf_blockOfList (bytes : List Byte) (b : Fin 16) :
    (bytesOf (wordOf (blockOfList bytes))).byte b = bytes.getD b.val 0 := by
  rw [bytesOf_wordOf, blockOfList, byte_ofBytes]

theorem byte_bytesOf_wordOf_blockOfList_of_lt (bytes : List Byte) (b : Fin 16) (h : b.val < bytes.length) :
    (bytesOf (wordOf (blockOfList bytes))).byte b = bytes[b.val] := by
  rw [byte_bytesOf_wordOf_blockOfList, List.getD_eq_getElem _ _ h]

/-- The one offer of a command line, with its command word as a number. -/
theorem offer_append_op (len : Nat) (op : BitVec 2) (k d : BitVec 128) :
    [HostAction.offer ⟨BitVec.ofNat 4 len ++ op, k, d⟩] =
      [HostAction.offer ⟨BitVec.ofNat 6 (len * 4 + op.toNat), k, d⟩] := by
  rw [append_op_eq_ofNat]

/-- Settles O58, line by line. -/
theorem commandLinesAssemble : Obligations.CommandLinesAssemble :=
  ⟨fun key _ => ⟨_, offer_append_op 0 0b00#2 (wordOf (blockOfList key)) 0,
      byte_bytesOf_wordOf_blockOfList_of_lt key⟩,
    fun block _ => ⟨_, offer_append_op 0 0b01#2 0 (wordOf (blockOfList block)),
      byte_bytesOf_wordOf_blockOfList_of_lt block⟩,
    fun len chunk _ => ⟨_, offer_append_op len 0b10#2 0 (wordOf (blockOfList chunk)),
      byte_bytesOf_wordOf_blockOfList chunk⟩,
    fun len _ => offer_append_op len 0b11#2 0 0⟩

/-! ### Pseudo-instructions -/

/-- The tail of a stream has the bytes the full chunks leave over (44_block_driver.md R173). -/
theorem length_streamTail (bytes : List Byte) : (streamTail bytes).length = bytes.length % 16 := by
  rw [streamTail, List.length_drop]
  omega

/-- Settles O59: only the stream's expansion is more than a definition read off, by the length of its
tail. -/
theorem pseudoInstructionsExpand : Obligations.PseudoInstructionsExpand := by
  refine ⟨rfl, fun _ => rfl, rfl, rfl, fun _ => rfl, fun bytes => ?stream, fun _ => ⟨rfl, rfl⟩,
    fun _ _ _ => ⟨rfl, rfl⟩, present_reset, rfl, rfl, rfl⟩
  case stream =>
    calc streamActions bytes
        = (List.range (bytes.length / 16)).map (fun b => encAction (streamChunk bytes b)) ++
            [encPadAction (streamTail bytes).length (streamTail bytes)] := by
          rw [length_streamTail]; rfl
      _ = _ := by rw [List.map_eq_flatMap]; rfl

end Sys2Proof.Machine
end

section
/-! PROOF. One step as a function of the state (10_state.md R38): the accepting edge with the record written
out, and reset edges (70_reset_and_hazards.md R210). -/

namespace Sys2Proof.Machine

/-! ### The accepting edge -/

/-- The record of an accepting edge, written out: a `status` sample always, a rejection when the edge left
an error; no block completes. -/
theorem record_of_offer {s u : State} {c : Command} {rest : List HostAction} (hp : s.phase = .idle)
    (hs : s.script = .offer c :: rest) {i : Instr} (hu : exec i s = .next u) :
    record s u = { u with
      script := rest
      statusLog := s.statusLog ++ [u.status false]
      rejectLog := if u.err then s.rejectLog ++ [⟨c.cmd, u.errCode⟩] else s.rejectLog } := by
  have hpins := pins_of_offer hs
  have haccepts : s.accepts = true := accepts_iff.mpr ⟨by rw [hpins]; rfl, by rw [hpins]; rfl, hp⟩
  have hcompletes : completes s u = false := completes_of_not_enc (by rw [hp]; decide)
  obtain ⟨-, -, hdoutLog, -⟩ := exec_keeps_host hu
  simp [record, hpins, haccepts, hcompletes, hdoutLog, planAfter_of_offer_idle hs hp]

/-- Settles O29: the edge is `exec` of the decoded ports, and for an offered encoding the record is that of
`record_of_offer`. -/
theorem stepRunsTheDecodedCommand : Obligations.StepRunsTheDecodedCommand := by
  refine ⟨fun s hr hv hp => ?ports, fun s i rest hp hs => ?offer⟩
  case ports => rw [step, edge_of_accept hr hv hp]
  case offer =>
    obtain ⟨u, hu⟩ := exec_total i s
    exact ⟨u, hu, by rw [step_of_offer hp hs hu, record_of_offer hp hs hu]⟩

/-! ### Reset edges -/

/-- A reset edge leaves nothing of the state but the host's plan. -/
theorem step_of_rst {s : State} (hr : s.pins.rst = true) :
    step s = .next { State.reset with script := s.planAfter } := by
  rw [step_of_edge (edge_of_rst hr)]
  simp [record, resetRegisters, State.reset, hr, codeNone]

/-- Settles O30. -/
theorem resetEdge : Obligations.ResetEdge := fun _ hr => ⟨accepts_of_rst hr, step_of_rst hr⟩

/-- Settles O32: the state after a reset edge is the reset state with a plan, whose next edge is a reset edge
again or one in IDLE. -/
theorem heldResetStaysReset : Obligations.HeldResetStaysReset := by
  intro s t hr ht
  rw [step_of_rst hr] at ht
  cases ht
  refine ⟨rfl, fun p hp => ⟨?status, rkWord_reset_W _⟩,
    fun hheld => ⟨accepts_of_rst hheld, step_of_rst hheld⟩, fun hend hv => accepts_iff.mpr ⟨hend, hv, rfl⟩⟩
  case status =>
    have hstatus : State.reset.status true = 0x00 := by decide
    exact (congrArg State.reset.status hp).trans hstatus

end Sys2Proof.Machine
end

section
/-! PROOF. The block function as a function: one store expands a key (42_key_schedule.md R126, R127), and the
standard vectors. -/

namespace Sys2Proof.Machine

/-- Two stores that hold a key and follow the recurrence agree word by word: each word is given by the key
or by earlier words (42_key_schedule.md R127). -/
theorem IsExpansion.getElem_eq {K : Block} {W W' : KeyStore} (h : IsExpansion K W) (h' : IsExpansion K W')
    (i : Nat) (hi : i < 44) : W[i] = W'[i] := by
  obtain ⟨⟨h0, h1, h2, h3⟩, hrec⟩ := h
  obtain ⟨⟨h0', h1', h2', h3'⟩, hrec'⟩ := h'
  induction i using Nat.strongRecOn with
  | ind i ih =>
    match i with
    | 0 => exact h0.trans h0'.symm
    | 1 => exact h1.trans h1'.symm
    | 2 => exact h2.trans h2'.symm
    | 3 => exact h3.trans h3'.symm
    | n + 4 =>
      rw [hrec (n + 4) (by omega) hi, hrec' (n + 4) (by omega) hi, ih (n + 4 - 1) (by omega) (by omega),
        ih (n + 4 - 4) (by omega) (by omega)]

/-- Settles O22: `expand(K)` is one such store, and any other agrees with it. -/
theorem expansionIsUnique : Obligations.ExpansionIsUnique := by
  intro K W
  constructor
  · exact fun h => Vector.ext (h.getElem_eq (expand_isExpansion K))
  · rintro rfl
    exact expand_isExpansion K

/-- Settles O20 by evaluation of the cipher at three keys and blocks. -/
theorem standardVectors : Obligations.StandardVectors := by
  refine ⟨?allZero, ?counting, ?appendixB⟩
  case allZero => decide +kernel
  case counting => decide +kernel
  case appendixB => decide +kernel

end Sys2Proof.Machine
end

section
/-! PROOF. Control over one step: `key_valid` (10_state.md R25), the record of rejections
(70_reset_and_hazards.md R222), and that neither key nor data decides anything (43_round_pipeline.md R150). -/

namespace Sys2Proof.Machine

/-! ### `key_valid` -/

theorem acceptBlock_keyValid (P : Block) (s : State) : (acceptBlock P s).keyValid = s.keyValid := by
  cases hk : s.keyValid with
  | true => rw [acceptBlock_of_key P hk, startBlock_keyValid, hk]
  | false => rw [acceptBlock_of_noKey P hk, raiseError_keyValid, hk]

/-- Of the four commands LOAD_KEY alone writes `key_valid` at its accepting edge (10_state.md R25). -/
theorem exec_keyValid {i : Instr} {s u : State} (h : exec i s = .next u) :
    u.keyValid = if i.op = 0b00#2 then false else s.keyValid := by
  cases i with
  | loadKey len k d => cases h; rfl
  | encrypt len k d => cases h; exact acceptBlock_keyValid _ _
  | encryptPad len k d => cases h; exact acceptBlock_keyValid _ _
  | rsvd len k d => cases h; rfl

/-- `key_valid` after any edge (10_state.md R25). -/
theorem EdgeTaken.keyValid {s u : State} (h : EdgeTaken s u) :
    u.keyValid = if s.pins.rst then false
      else if s.accepts ∧ (decode s.pins.command).op = 0b00#2 then false
      else if s.phase = .keyexp ∧ s.ctr = 43 then true else s.keyValid := by
  cases h with
  | reset hr => simp [hr]
  | quiet hr hp hv => simp [hr, hp, hv, accepts_of_idle]
  | accept hr hp hv he => simpa [hr, hp, hv, accepts_of_idle] using exec_keyValid he
  | expand hr hp hc hne => simp [hr, hp, hne, accepts_of_busy]
  | expandLast hr hp hc hlast => simp [hr, hp, hlast, accepts_of_busy]
  | round hr hp hc hne => simp [hr, hp, accepts_of_busy]
  | roundLast hr hp hlast => simp [hr, hp, accepts_of_busy]

/-- Settles O44, edge by edge. -/
theorem keyValidWindow : Obligations.KeyValidWindow := by
  intro s t h
  obtain ⟨u, hu, rfl⟩ := step_cases h
  exact hu.keyValid

/-! ### The record of rejections -/

/-- Settles O46: the record adds what the error registers say after an accepting edge. -/
theorem rejectionsAreRemembered : Obligations.RejectionsAreRemembered := by
  intro s t hr h
  obtain ⟨u, hu, rfl⟩ := step_cases h
  have herror := hu.error
  rw [record_rejectLog]
  cases ha : s.accepts with
  | false => simp [hr]
  | true =>
    simp only [hr, ha, Bool.false_eq_true, if_false, if_true, Prod.mk.injEq] at herror
    obtain ⟨herr, hcode⟩ := herror
    by_cases hrej : rejectionCode (decode s.pins.command) s.keyValid = 0#2
    · simp [hr, herr, hrej]
    · simp [hr, herr, hcode, hrej]

/-! ### Key and data decide nothing -/

/-- Port values with the two operand ports wiped. -/
def Pins.wipe (p : Pins) : Pins := { p with keyIn := 0, dataIn := 0 }

/-- A plan with its operands wiped gives the ports, wiped, and the plan after them, wiped. -/
theorem present_map_wipeOperands (ready : Bool) (plan : List HostAction) :
    present ready (plan.map wipeOperands) =
      (Pins.wipe (present ready plan).1, (present ready plan).2.map wipeOperands) := by
  induction plan with
  | nil => rfl
  | cons a rest ih =>
    cases a with
    | drive p => rfl
    | offer c => cases ready with
      | true => rfl
      | false => rfl
    | waitReady => cases ready with
      | true => exact ih
      | false => rfl
    | idle n => cases n with
      | zero => exact ih
      | succ n => rfl
    | reset => rfl

section

variable {s₁ s₂ : State} (h : SameControl s₁ s₂)

include h

/-- The ports of two such states agree but for the operands, and so do the plans after the edge. -/
theorem SameControl.present :
    Pins.wipe s₁.pins = Pins.wipe s₂.pins ∧
      s₁.planAfter.map wipeOperands = s₂.planAfter.map wipeOperands := by
  have hpresent := congrArg (Machine.present (decide (s₁.phase = .idle))) h.script
  rw [present_map_wipeOperands, present_map_wipeOperands] at hpresent
  have hboth := Prod.mk.inj hpresent
  rwa [State.pins, State.planAfter, State.pins, State.planAfter, ← h.phase]

theorem SameControl.rst : s₁.pins.rst = s₂.pins.rst := by
  simpa only [Pins.wipe] using congrArg Pins.rst h.present.1

theorem SameControl.cmdValid : s₁.pins.cmdValid = s₂.pins.cmdValid := by
  simpa only [Pins.wipe] using congrArg Pins.cmdValid h.present.1

theorem SameControl.cmd : s₁.pins.cmd = s₂.pins.cmd := by
  simpa only [Pins.wipe] using congrArg Pins.cmd h.present.1

/-- The same `status` shows (10_state.md R31). -/
theorem SameControl.status (rst : Bool) : s₁.status rst = s₂.status rst := by
  simp only [State.status, State.cmdReady, State.busy, h.phase, h.keyValid, h.outValid, h.err, h.errCode]

theorem SameControl.clearOutcome : SameControl (Machine.clearOutcome s₁) (Machine.clearOutcome s₂) :=
  { h with outValid := rfl, err := rfl, errCode := rfl }

theorem SameControl.startExpansion (K₁ K₂ : Block) :
    SameControl (Machine.startExpansion K₁ s₁) (Machine.startExpansion K₂ s₂) :=
  { h with phase := rfl, ctr := rfl, keyValid := rfl }

theorem SameControl.raiseError (code : BitVec 2) :
    SameControl (Machine.raiseError code s₁) (Machine.raiseError code s₂) :=
  { h with err := rfl, errCode := rfl }

/-- Whether a block starts is up to `key_valid` alone (60_exceptions.md R193). -/
theorem SameControl.acceptBlock (P₁ P₂ : Block) :
    SameControl (Machine.acceptBlock P₁ s₁) (Machine.acceptBlock P₂ s₂) := by
  cases hk : s₁.keyValid with
  | true =>
    rw [acceptBlock_of_key P₁ hk, acceptBlock_of_key P₂ (h.keyValid ▸ hk)]
    exact { h with phase := rfl, ctr := rfl }
  | false =>
    rw [acceptBlock_of_noKey P₁ hk, acceptBlock_of_noKey P₂ (h.keyValid ▸ hk)]
    exact h.raiseError codeNoKey

/-- Two commands with the same command word take their accepting edges to the same control. -/
theorem SameControl.exec {c₁ c₂ : Command} (hcmd : c₁.cmd = c₂.cmd) {u₁ : State}
    (h₁ : Machine.exec (decode c₁) s₁ = .next u₁) :
    ∃ u₂, Machine.exec (decode c₂) s₂ = .next u₂ ∧ SameControl u₁ u₂ := by
  simp only [decode, hcmd] at h₁ ⊢
  split_ifs at h₁ ⊢
  · cases h₁; exact ⟨_, rfl, h.clearOutcome.startExpansion _ _⟩
  · cases h₁; exact ⟨_, rfl, h.clearOutcome.acceptBlock _ _⟩
  · cases h₁; exact ⟨_, rfl, h.clearOutcome.acceptBlock _ _⟩
  · cases h₁; exact ⟨_, rfl, h.clearOutcome.raiseError _⟩

/-- Whatever edge the one state takes, the other takes an edge of the same kind. -/
theorem SameControl.edge {u₁ : State} (h₁ : EdgeTaken s₁ u₁) :
    ∃ u₂, Machine.edge s₂ = .next u₂ ∧ SameControl u₁ u₂ := by
  cases h₁ with
  | reset hr =>
    exact ⟨_, edge_of_rst (h.rst ▸ hr), ⟨rfl, rfl, rfl, rfl, rfl, rfl, h.script⟩⟩
  | quiet hr hp hv =>
    exact ⟨_, edge_of_quiet (h.rst ▸ hr) (h.cmdValid ▸ hv) (h.phase ▸ hp), h⟩
  | accept hr hp hv he =>
    rw [edge_of_accept (h.rst ▸ hr) (h.cmdValid ▸ hv) (h.phase ▸ hp)]
    exact h.exec h.cmd he
  | expand hr hp hc hne =>
    rw [edge_of_keyexp (h.rst ▸ hr) (h.phase ▸ hp)]
    have hlt : 4 ≤ s₂.ctr.toNat ∧ s₂.ctr.toNat < 43 := by rw [← h.ctr]; bv_omega
    exact ⟨_, keyexpEdge_of_lt hlt, { h with ctr := congrArg (· + 1) h.ctr }⟩
  | expandLast hr hp hc hlast =>
    rw [edge_of_keyexp (h.rst ▸ hr) (h.phase ▸ hp)]
    have h43 : s₂.ctr.toNat = 43 := by rw [← h.ctr, hlast]; rfl
    exact ⟨_, keyexpEdge_last h43, { h with phase := rfl, ctr := rfl, keyValid := rfl }⟩
  | round hr hp hc hne =>
    rw [edge_of_enc (h.rst ▸ hr) (h.phase ▸ hp)]
    exact ⟨_, encEdge_of_lt (h.ctr ▸ hc), { h with ctr := congrArg (· + 1) h.ctr }⟩
  | roundLast hr hp hlast =>
    rw [edge_of_enc (h.rst ▸ hr) (h.phase ▸ hp)]
    have h10 : s₂.ctr.toNat = 10 := by rw [← h.ctr, hlast]; rfl
    exact ⟨_, encEdge_last h10, { h with phase := rfl, ctr := rfl, outValid := rfl }⟩

end

/-- Settles O45: the edge keeps the registers' control the same, and the host's move the plans. -/
theorem controlIgnoresKeyAndData : Obligations.ControlIgnoresKeyAndData := by
  intro s₁ s₂ t₁ h ht₁
  obtain ⟨u₁, hu₁, rfl⟩ := step_cases ht₁
  obtain ⟨u₂, hu₂, hu⟩ := h.edge hu₁
  have hrecord : SameControl (record s₁ u₁) (record s₂ u₂) := { hu with script := h.present.2 }
  exact ⟨_, step_of_edge hu₂, hrecord, hrecord.status⟩

end Sys2Proof.Machine
end

section
/-! PROOF. An encryption as a whole, edge by edge (43_round_pipeline.md R146 to R150; 44_block_driver.md R171,
R174). -/

namespace Sys2Proof.Machine

/-! ### The rounds of the block function -/

/-- The state matrix after AddRoundKey 0 and `n` full rounds. -/
def roundState (W : KeyStore) (P : Block) : Nat → Block
  | 0 => addRoundKey W P 0
  | n + 1 => fullRound W (roundState W P n) (Fin.ofNat 11 (n + 1))

/-- The ciphertext is the final round of the state after nine full ones (43_round_pipeline.md R149). -/
theorem finalRound_roundState (W : KeyStore) (P : Block) :
    finalRound W (roundState W P 9) = encryptWith W P := rfl

/-- The command encrypts the block `P`: ENCRYPT its own, ENCRYPT_PAD its padded one. -/
def EncryptsBlock (i : Instr) (P : Block) : Prop :=
  (∃ len k d, i = .encrypt len k d ∧ P = bytesOf d) ∨
    ∃ len k d, i = .encryptPad len k d ∧ P = pad (bytesOf d) len

theorem EncryptsBlock.exec {i : Instr} {P : Block} (h : EncryptsBlock i P) {s : State}
    (hk : s.keyValid = true) : Machine.exec i s = .next (startBlock P (clearOutcome s)) := by
  obtain ⟨len, k, d, rfl, rfl⟩ | ⟨len, k, d, rfl, rfl⟩ := h
  · rw [exec_encrypt, acceptBlock_clear_of_key _ hk]
  · rw [exec_encryptPad, acceptBlock_clear_of_key _ hk]

/-! ### The edges -/

/-- `t` is the state `n` edges after the accepting edge, in `s`, of a command that encrypts `P`. -/
structure Encrypting (P : Block) (s : State) (n : Nat) (t : State) : Prop where
  plan : NoReset t.script
  key : t.W = s.W ∧ t.keyValid = true
  noError : t.err = false ∧ t.errCode = 0
  underWay : n < 10 → t.phase = .enc ∧ t.ctr.toNat = n + 1 ∧ t.S = roundState s.W P n ∧
    t.outValid = false ∧ t.dout = s.dout ∧ t.doutLog = s.doutLog
  finished : n = 10 → t.phase = .idle ∧ t.outValid = true ∧ t.dout = encryptWith s.W P ∧
    t.doutLog = s.doutLog ++ [encryptWith s.W P]

/-- An encrypting command offered in IDLE under a valid key is accepted at the next edge. -/
theorem encrypting_accepted {s : State} {i : Instr} {P : Block} {rest : List HostAction}
    (hp : s.phase = .idle) (hk : s.keyValid = true) (hs : s.script = .offer (encode i) :: rest)
    (hrest : NoReset rest) (hi : EncryptsBlock i P) : ∃ t, step s = .next t ∧ Encrypting P s 0 t := by
  have hexec := hi.exec hk
  refine ⟨_, step_of_offer hp hs hexec, ?_⟩
  rw [record_of_offer hp hs hexec]
  exact
    { plan := hrest
      key := ⟨rfl, hk⟩
      noError := ⟨rfl, rfl⟩
      underWay := fun _ => ⟨rfl, rfl, rfl, rfl, rfl, rfl⟩
      finished := fun h => by omega }

/-- While rounds are missing, the next edge does the next one, and the last one completes the block. -/
theorem Encrypting.step {P : Block} {s t : State} {n : Nat} (h : Encrypting P s n t) (hn : n < 10) :
    ∃ u, Machine.step t = .next u ∧ Encrypting P s (n + 1) u := by
  obtain ⟨hp, hctr, hS, houtValid, hdout, hdoutLog⟩ := h.underWay hn
  obtain ⟨hW, hk⟩ := h.key
  obtain ⟨hrst, hplan⟩ := h.plan.present (decide (t.phase = .idle))
  have hr : t.pins.rst = false := hrst
  have ha : t.accepts = false := accepts_of_busy (by rw [hp]; decide)
  obtain rfl | hlt : n = 9 ∨ n < 9 := by omega
  · have hcipher : finalRound t.W t.S = encryptWith s.W P := by rw [hW, hS, finalRound_roundState]
    have hcompletes : completes t (completeBlock (encryptWith s.W P)
        { t with S := encryptWith s.W P }) = true := by
      simp [completes, hr, hp]
    refine ⟨_, step_of_enc_last hp hr hctr, ?_⟩
    rw [hcipher]
    exact
      { plan := hplan
        key := ⟨hW, hk⟩
        noError := h.noError
        underWay := fun h10 => absurd h10 (by decide)
        finished := fun _ => ⟨rfl, rfl, rfl, by
          rw [record_doutLog, hr, hcompletes, hdoutLog]; rfl⟩ }
  · have hround : (⟨t.ctr.toNat, by omega⟩ : Fin 11) = Fin.ofNat 11 (n + 1) :=
      Fin.ext (hctr.trans (Nat.mod_eq_of_lt (by omega)).symm)
    have hcompletes : completes t { t with S := fullRound t.W t.S (Fin.ofNat 11 (n + 1)), ctr := t.ctr + 1 } =
        false := by simp [completes, hp]
    have hcount : (t.ctr + 1).toNat = n + 1 + 1 := by bv_omega
    refine ⟨_, step_of_enc_of_lt hp hr (by omega), ?_⟩
    rw [hround, record_quiet hr ha hcompletes]
    exact
      { plan := hplan
        key := ⟨hW, hk⟩
        noError := h.noError
        underWay := fun _ => ⟨hp, hcount, by rw [hW, hS]; rfl, houtValid, hdout, hdoutLog⟩
        finished := fun h10 => by omega }

/-- From the accepting edge of an encrypting command on, the block is encrypted edge by edge up to its
end. -/
theorem encrypting_run {s : State} {i : Instr} {P : Block} {rest : List HostAction} (hp : s.phase = .idle)
    (hk : s.keyValid = true) (hs : s.script = .offer (encode i) :: rest) (hrest : NoReset rest)
    (hi : EncryptsBlock i P) {j : Nat} (hj : j ≤ 10) :
    ∃ t, runFor (1 + j) s = .next t ∧ Encrypting P s j t := by
  induction j with
  | zero =>
    obtain ⟨t, ht, henc⟩ := encrypting_accepted hp hk hs hrest hi
    exact ⟨t, runFor_snoc (runFor_zero s) ht, henc⟩
  | succ j ih =>
    obtain ⟨t, ht, henc⟩ := ih (by omega)
    obtain ⟨u, hu, hnext⟩ := henc.step (by omega)
    exact ⟨u, runFor_snoc ht hu, hnext⟩

/-- Settles O51: what `Encrypting` says of the state `j` edges after the accepting edge, under way or
finished. -/
theorem encryptRun : Obligations.EncryptRun := by
  intro s i P rest j hp hk hs hrest hi hj
  obtain ⟨t, ht, henc⟩ := encrypting_run hp hk hs hrest hi hj
  obtain ⟨hW, hkey⟩ := henc.key
  obtain ⟨herr, hcode⟩ := henc.noError
  refine ⟨t, ht, hW, hkey, herr, hcode, ?_⟩
  obtain hlt | rfl : j < 10 ∨ j = 10 := by omega
  · obtain ⟨hphase, -, -, houtValid, hdout, hdoutLog⟩ := henc.underWay hlt
    have hne : j ≠ 10 := by omega
    simp [State.busy, hphase, houtValid, hdout, hdoutLog, hlt, hne]
  · obtain ⟨hphase, houtValid, hdout, hdoutLog⟩ := henc.finished rfl
    simp [State.busy, hphase, houtValid, hdout, hdoutLog]

end Sys2Proof.Machine
end

section
/-! PROOF. Runs and their ends (70_reset_and_hazards.md R222): a plan of commands offered back to back, each
command as a run of its own, and the runs they make up. -/

namespace Sys2Proof.Machine

/-! ### Runs that are not over on the way -/

/-- `n` edges take `s` to `t`, and the run is over at none of the states before `t`. -/
structure RunsOn (s : State) (n : Nat) (t : State) : Prop where
  reached : runFor n s = .next t
  notOver : ∀ m, m < n → ∀ u, runFor m s = .next u → ¬u.RunOver

theorem RunsOn.refl (s : State) : RunsOn s 0 s where
  reached := runFor_zero s
  notOver m hm := absurd hm (Nat.not_lt_zero m)

theorem RunsOn.trans {s t u : State} {m n : Nat} (h : RunsOn s m t) (k : RunsOn t n u) :
    RunsOn s (m + n) u where
  reached := (runFor_add h.reached n).trans k.reached
  notOver j hj v hv := by
    obtain hlt | ⟨i, rfl⟩ : j < m ∨ ∃ i, j = m + i :=
      (Nat.lt_or_ge j m).imp_right Nat.exists_eq_add_of_le
    · exact h.notOver j hlt v hv
    · exact k.notOver i (by omega) v ((runFor_add h.reached i).symm.trans hv)

/-- The first state at which the run is over is its end. -/
theorem RunsOn.endsAt {s t : State} {n : Nat} (h : RunsOn s n t) (ht : t.RunOver) : RunEndsAt s n t where
  reached := h.reached
  isOver := ht
  first := h.notOver

theorem runFor_one (s : State) : runFor 1 s = step s := by
  cases hs : step s with
  | next t => exact runFor_succ hs 0
  | fault f => simp [runFor, Host.Core.run, Sys2Proof.core, hs]
  | refused r => simp [runFor, Host.Core.run, Sys2Proof.core, hs]

/-- What a run does at its next edge is a step. -/
theorem step_of_runFor_add_one {s t u : State} {m : Nat} (h : runFor m s = .next t)
    (hu : runFor (m + 1) s = .next u) : step t = .next u := by
  rwa [runFor_add h, runFor_one] at hu

/-! ### Commands still to come -/

/-- The plan offers the commands `cs` back to back and after them no command and no reset; after them
nothing at all, when `nothingElse` holds. -/
def Pending (nothingElse : Prop) (cs : List Command) (plan : List HostAction) : Prop :=
  ∃ rest, plan = cs.map .offer ++ rest ∧ rest.any offersCommand = false ∧ NoReset rest ∧
    (nothingElse → rest = [])

section

variable {nothingElse : Prop} {cs : List Command} {plan : List HostAction}

theorem Pending.noReset (h : Pending nothingElse cs plan) : NoReset plan := by
  obtain ⟨rest, rfl, -, hr, -⟩ := h
  intro a ha
  obtain hoffer | hrest := List.mem_append.mp ha
  · obtain ⟨c, -, rfl⟩ := List.mem_map.mp hoffer
    rfl
  · exact hr a hrest

/-- The first command stands at the head of the plan, the others after it. -/
theorem Pending.uncons {c : Command} (h : Pending nothingElse (c :: cs) plan) :
    ∃ rest, plan = .offer c :: rest ∧ Pending nothingElse cs rest := by
  obtain ⟨rest, rfl, hrest⟩ := h
  exact ⟨_, rfl, rest, rfl, hrest⟩

theorem Pending.eq_nil (h : Pending nothingElse [] plan) (hn : nothingElse) : plan = [] := by
  obtain ⟨rest, rfl, -, -, hnil⟩ := h
  exact hnil hn

/-- A run with a command still to come is not over. -/
theorem Pending.not_runOver {c : Command} {s : State} (h : Pending nothingElse (c :: cs) s.script) :
    ¬s.RunOver := by
  rintro ⟨-, hnone⟩
  obtain ⟨rest, hs, -⟩ := h.uncons
  rw [hs] at hnone
  cases hnone

/-- In IDLE with no command to come the run is over. -/
theorem Pending.runOver {s : State} (h : Pending nothingElse [] s.script) (hp : s.phase = .idle) :
    s.RunOver := by
  obtain ⟨rest, hs, hnone, -⟩ := h
  exact ⟨hp, hs ▸ hnone⟩

/-- The edge of a busy phase takes no command off the plan. -/
theorem Pending.present_busy (h : Pending nothingElse cs plan) :
    Pending nothingElse cs (present false plan).2 := by
  cases cs with
  | nil =>
    obtain ⟨rest, rfl, hnone, hr, hnil⟩ := h
    refine ⟨_, rfl, (present_of_no_offer hnone false).2, (hr.present false).2, fun hn => ?_⟩
    rw [hnil hn]
    rfl
  | cons c cs =>
    obtain ⟨rest, rfl, hrest⟩ := h.uncons
    exact h

/-- At a busy edge the commands still to come and the recorded statuses stand. -/
theorem Pending.step_of_busy {s t : State} (h : Pending nothingElse cs s.script) (hp : s.phase ≠ .idle)
    (ht : step s = .next t) : Pending nothingElse cs t.script ∧ t.statusLog = s.statusLog := by
  obtain ⟨u, -, rfl⟩ := step_cases ht
  have hr : s.pins.rst = false := (h.noReset.present _).1
  have hidle : decide (s.phase = .idle) = false := decide_eq_false hp
  constructor
  · rw [record_script, State.planAfter, hidle]
    exact h.present_busy
  · rw [record_statusLog, hr, accepts_of_busy hp]
    rfl

end

/-! ### One command -/

/-- The run of the first of the commands still to come: `n` edges from `s` to `t`, after which the engine is
in IDLE with the commands `cs` still to come and one `status` more on record. -/
structure CommandRun (nothingElse : Prop) (cs : List Command) (s : State) (n : Nat) (t : State) : Prop where
  runsOn : RunsOn s n t
  idle : t.phase = .idle
  pending : Pending nothingElse cs t.script
  statuses : t.statusLog.length = s.statusLog.length + 1

/-- The command accepted at the next edge keeps the engine busy for `n` edges after it. -/
def BusyFor (s : State) (n : Nat) : Prop :=
  ∀ j ≤ n, ∃ t, runFor (1 + j) s = .next t ∧ t.busy = decide (j < n)

section

variable {nothingElse : Prop} {cs : List Command} {s : State}

theorem BusyFor.phase_ne_idle_iff {n j : Nat} (h : BusyFor s n) (hj : j ≤ n) {t : State}
    (ht : runFor (1 + j) s = .next t) : t.phase ≠ .idle ↔ j < n := by
  obtain ⟨u, hu, hbusy⟩ := h j hj
  cases ht.symm.trans hu
  exact decide_eq_decide.mp hbusy

/-- From its accepting edge to its last a command leaves the ones after it on the plan, and its one `status`
on record. -/
theorem BusyFor.pending {n : Nat} (h : BusyFor s n) {c : Command} (hp : s.phase = .idle)
    (hplan : Pending nothingElse (c :: cs) s.script) {j : Nat} (hj : j ≤ n) {t : State}
    (ht : runFor (1 + j) s = .next t) :
    Pending nothingElse cs t.script ∧ t.statusLog.length = s.statusLog.length + 1 := by
  induction j generalizing t with
  | zero =>
    obtain ⟨rest, hs, hrest⟩ := hplan.uncons
    rw [← encode_decode c] at hs
    obtain ⟨u, hu⟩ := exec_total (decode c) s
    rw [runFor_one, step_of_offer hp hs hu, record_of_offer hp hs hu] at ht
    cases ht
    exact ⟨hrest, List.length_append⟩
  | succ j ih =>
    obtain ⟨u, hu, -⟩ := h j (by omega)
    obtain ⟨hpending, hstatus⟩ := ih (by omega) hu
    have hbusy : u.phase ≠ .idle := (h.phase_ne_idle_iff (by omega) hu).mpr (by omega)
    obtain ⟨hpending', hsame⟩ := hpending.step_of_busy hbusy (step_of_runFor_add_one hu ht)
    exact ⟨hpending', hsame ▸ hstatus⟩

/-- A command that keeps the engine busy for `n` edges after its accepting edge is done at the last of
them, and the run is not over before: the command was still to come, or the engine busy. -/
theorem BusyFor.commandRun {c : Command} {n : Nat} {t : State} (h : BusyFor s n) (hp : s.phase = .idle)
    (hplan : Pending nothingElse (c :: cs) s.script) (ht : runFor (1 + n) s = .next t) :
    CommandRun nothingElse cs s (1 + n) t := by
  obtain ⟨hpending, hstatus⟩ := h.pending hp hplan le_rfl ht
  have hidle : t.phase = .idle := by simpa using (h.phase_ne_idle_iff le_rfl ht).not
  refine ⟨⟨ht, fun m hm u hu hover => ?_⟩, hidle, hpending, hstatus⟩
  obtain rfl | ⟨j, rfl⟩ : m = 0 ∨ ∃ j, m = 1 + j := m.eq_zero_or_pos.imp_right Nat.exists_eq_add_of_le
  · cases hu
    exact hplan.not_runOver hover
  · exact (h.phase_ne_idle_iff (by omega) hu).mpr (by omega) hover.1

/-- LOAD_KEY is done after 41 edges, with its key expanded. -/
theorem commandRun_loadKey {len : BitVec 4} {k d : BitVec 128} (hp : s.phase = .idle)
    (hplan : Pending nothingElse (encode (.loadKey len k d) :: cs) s.script) :
    ∃ t, CommandRun nothingElse cs s 41 t ∧ t.W = expand (bytesOf k) ∧ t.keyValid = true := by
  obtain ⟨rest, hs, hrest⟩ := hplan.uncons
  have hrun : ∀ j ≤ 40, ∃ t, runFor (1 + j) s = .next t ∧ LoadingKey (bytesOf k) s j t :=
    fun j hj => loadingKey_run hp hs hrest.noReset hj
  obtain ⟨t, ht, hload⟩ := hrun 40 le_rfl
  have hbusy : BusyFor s 40 := fun j hj => (hrun j hj).imp fun _ h => ⟨h.1, h.2.busy hj⟩
  exact ⟨t, hbusy.commandRun hp hplan ht, hload.words.eq_expand, hload.keyValid⟩

/-- An encrypting command under a valid key is done after 11 edges, with its ciphertext out and recorded. -/
theorem commandRun_encrypts {i : Instr} {P : Block} (hi : EncryptsBlock i P) (hp : s.phase = .idle)
    (hk : s.keyValid = true) (hplan : Pending nothingElse (encode i :: cs) s.script) :
    ∃ t, CommandRun nothingElse cs s 11 t ∧ t.W = s.W ∧ t.keyValid = true ∧ t.err = false ∧
      t.outValid = true ∧ t.dout = encryptWith s.W P ∧ t.doutLog = s.doutLog ++ [encryptWith s.W P] := by
  obtain ⟨rest, hs, hrest⟩ := hplan.uncons
  have hrun := fun j hj => encryptRun s i P rest j hp hk hs hrest.noReset hi hj
  obtain ⟨t, ht, hW, hkey, herr, -, -, houtValid, hdout, hdoutLog⟩ := hrun 10 le_rfl
  have hbusy : BusyFor s 10 := by
    intro j hj
    obtain ⟨u, hu, -, -, -, -, hbusy, -⟩ := hrun j hj
    exact ⟨u, hu, hbusy⟩
  exact ⟨t, hbusy.commandRun hp hplan ht, hW, hkey, herr, houtValid, hdout, hdoutLog⟩

/-- A rejected command is done at its accepting edge (60_exceptions.md R194). -/
theorem commandRun_rejected {i : Instr} (hp : s.phase = .idle) (hcode : rejectionCode i s.keyValid ≠ 0)
    (hplan : Pending nothingElse (encode i :: cs) s.script) : ∃ t, CommandRun nothingElse cs s 1 t := by
  obtain ⟨rest, hs, -⟩ := hplan.uncons
  obtain ⟨t, ht, -, -, -, hidle, -⟩ := rejectedCommandTakesOneEdge s i rest hp hs hcode
  have hbusy : BusyFor s 0 := by
    intro j hj
    obtain rfl := Nat.le_zero.mp hj
    exact ⟨t, ht, by simp [State.busy, hidle]⟩
  exact ⟨t, hbusy.commandRun hp hplan ht⟩

/-- A command that is neither rejected nor LOAD_KEY encrypts a block under a valid key. -/
theorem rejected_or_loadKey_or_encrypts (i : Instr) (keyValid : Bool) :
    rejectionCode i keyValid ≠ 0 ∨ (∃ len k d, i = .loadKey len k d) ∨
      (keyValid = true ∧ ∃ P, EncryptsBlock i P) := by
  cases i with
  | loadKey len k d => exact .inr (.inl ⟨len, k, d, rfl⟩)
  | encrypt len k d =>
    cases keyValid with
    | true => exact .inr (.inr ⟨rfl, _, .inl ⟨len, k, d, rfl, rfl⟩⟩)
    | false => exact .inl (by simp [rejectionCode, codeNoKey])
  | encryptPad len k d =>
    cases keyValid with
    | true => exact .inr (.inr ⟨rfl, _, .inr ⟨len, k, d, rfl, rfl⟩⟩)
    | false => exact .inl (by simp [rejectionCode, codeNoKey])
  | rsvd len k d => exact .inl (by simp [rejectionCode, codeIllegalOp])

/-- Any command at all is done within 41 edges (70_reset_and_hazards.md R221). -/
theorem commandRun_bounded {c : Command} (hp : s.phase = .idle)
    (hplan : Pending nothingElse (c :: cs) s.script) : ∃ n ≤ 41, ∃ t, CommandRun nothingElse cs s n t := by
  rw [← encode_decode c] at hplan
  obtain hcode | ⟨len, k, d, hi⟩ | ⟨hk, P, hi⟩ := rejected_or_loadKey_or_encrypts (decode c) s.keyValid
  · exact ⟨1, by decide, commandRun_rejected hp hcode hplan⟩
  · rw [hi] at hplan
    obtain ⟨t, ht, -⟩ := commandRun_loadKey hp hplan
    exact ⟨41, le_rfl, t, ht⟩
  · obtain ⟨t, ht, -⟩ := commandRun_encrypts hi hp hk hplan
    exact ⟨11, by decide, t, ht⟩

end

/-! ### Lists of commands -/

/-- All the commands of a list are done within 41 edges each, one after the other. -/
theorem pending_run_bounded {nothingElse : Prop} (cs : List Command) {s : State} (hp : s.phase = .idle)
    (hplan : Pending nothingElse cs s.script) :
    ∃ n t, n ≤ 41 * cs.length ∧ RunsOn s n t ∧ t.phase = .idle ∧ Pending nothingElse [] t.script ∧
      t.statusLog.length = s.statusLog.length + cs.length := by
  induction cs generalizing s with
  | nil => exact ⟨0, s, Nat.le_refl 0, RunsOn.refl s, hp, hplan, rfl⟩
  | cons c cs ih =>
    obtain ⟨m, hm, t, ht⟩ := commandRun_bounded hp hplan
    obtain ⟨n, u, hn, hrun, hidle, hpending, hstatus⟩ := ih ht.idle ht.pending
    have hfirst := ht.statuses
    exact ⟨m + n, u, by rw [List.length_cons]; omega, ht.runsOn.trans hrun, hidle, hpending,
      by rw [List.length_cons]; omega⟩

/-- Settles O55: after the last command the engine is in IDLE with nothing more offered. -/
theorem everyFiniteRunEnds : Obligations.EveryFiniteRunEnds := by
  intro s cs rest hp hs hnone hr
  obtain ⟨n, t, hn, hrun, hidle, hpending, hstatus⟩ :=
    pending_run_bounded (nothingElse := rest = []) cs hp ⟨rest, hs, hnone, hr, id⟩
  exact ⟨n, t, hn, hrun.endsAt (hpending.runOver hidle), hpending.eq_nil, hstatus⟩

/-- A plan of offers alone. -/
theorem pending_offers (cs : List Command) : Pending True cs (cs.map .offer) :=
  ⟨[], (List.append_nil _).symm, rfl, by simp [NoReset], fun _ => rfl⟩

/-- Settles O52: the run of LOAD_KEY, then that of ENCRYPT under the key it leaves. -/
theorem loadKeyThenEncryptGivesAes : Obligations.LoadKeyThenEncryptGivesAes := by
  intro s len len' key data k' d' p hp hs
  have hplan : Pending True [encode (.loadKey len key d'), encode (.encrypt len' k' data)] s.script :=
    hs ▸ pending_offers _
  obtain ⟨t, hload, hW, hk⟩ := commandRun_loadKey hp hplan
  have hi : EncryptsBlock (.encrypt len' k' data) (bytesOf data) := .inl ⟨len', k', data, rfl, rfl⟩
  obtain ⟨u, henc, -, -, herr, houtValid, hdout, -⟩ := commandRun_encrypts hi hload.idle hk hload.pending
  refine ⟨u, (hload.runsOn.trans henc.runsOn).endsAt (henc.pending.runOver henc.idle),
    henc.pending.eq_nil trivial, houtValid, herr, ?_⟩
  rw [hW] at hdout
  exact congrArg wordOf hdout

/-! ### After the end -/

/-- After the end of a run without a reset to come, any number of edges moves the plan on and does nothing
else. -/
theorem State.RunOver.runFor {s : State} (h : s.RunOver) (hr : NoReset s.script) (n : Nat) :
    ∃ t, Machine.runFor n s = .next t ∧ t = { s with script := t.script } ∧ t.RunOver := by
  induction n generalizing s with
  | zero => exact ⟨s, runFor_zero s, rfl, h⟩
  | succ n ih =>
    obtain ⟨hrst, hr'⟩ := hr.present (decide (s.phase = .idle))
    obtain ⟨hstep, hover⟩ := h.step hrst
    obtain ⟨t, ht, hsame, htover⟩ := ih hover hr'
    exact ⟨t, (runFor_succ hstep n).trans ht, hsame, htover⟩

/-- In IDLE with the plan used up an edge changes nothing at all. -/
theorem step_of_nil {s : State} (h : s.RunOver) (hs : s.script = []) : step s = .next s := by
  have hpins : s.pins.rst = false := by rw [pins_of_nil hs]; rfl
  obtain ⟨hstep, -⟩ := h.step hpins
  rw [hstep, planAfter_of_nil hs, ← hs]

/-- Settles O56: `busy` and `cmd_ready` are those of IDLE, and the edges after the end are quiet. -/
theorem nothingHappensAfterTheEnd : Obligations.NothingHappensAfterTheEnd := by
  intro s h
  have hp : s.phase = .idle := h.1
  refine ⟨by simp [State.busy, hp], by simp [State.cmdReady, hp], fun hr n => ?quiet, fun hs n => ?usedUp⟩
  case quiet =>
    obtain ⟨t, ht, hsame, hover⟩ := h.runFor hr n
    exact ⟨t, ht, hsame, by rw [hsame]; rfl, hover⟩
  case usedUp =>
    induction n with
    | zero => exact runFor_zero s
    | succ n ih => rw [runFor_succ (step_of_nil h hs), ih]

end Sys2Proof.Machine
end

section
/-! PROOF. A byte stream (44_block_driver.md R170, R173, R175): the bytes of its blocks, and the run that
encrypts them. -/

namespace Sys2Proof.Machine

/-! ### The bytes of the blocks -/

/-- The sixteen bytes of a block, byte 0 first (00_scope.md R9). -/
def blockBytes (B : Block) : List Byte := (List.finRange 16).map B.byte

theorem byte_blockOfList (bytes : List Byte) (k : Fin 16) :
    (blockOfList bytes).byte k = bytes.getD k.val 0 := byte_ofBytes _ k

/-- A full chunk's block holds the chunk. -/
theorem blockBytes_blockOfList {bytes : List Byte} (h : bytes.length = 16) :
    blockBytes (blockOfList bytes) = bytes := by
  refine List.ext_getElem (by simp [blockBytes, h]) fun k _ hk => ?_
  simp [blockBytes, byte_blockOfList, hk]

/-- A padded chunk's block holds the chunk, then the pad count up to the end (44_block_driver.md R170). -/
theorem blockBytes_pad_blockOfList {bytes : List Byte} (h : bytes.length < 16) :
    blockBytes (pad (blockOfList bytes) (BitVec.ofNat 4 bytes.length)) =
      bytes ++ List.replicate (16 - bytes.length) (BitVec.ofNat 8 (16 - bytes.length)) := by
  have hlen : (BitVec.ofNat 4 bytes.length).toNat = bytes.length := Nat.mod_eq_of_lt h
  refine List.ext_getElem (by simp [blockBytes]; omega) fun k _ _ => ?_
  by_cases hk : k < bytes.length
  · simp [blockBytes, byte_pad, byte_blockOfList, hlen, hk]
  · simp [blockBytes, byte_pad, padCount, hlen, hk, List.getElem_append_right (Nat.not_lt.mp hk)]

/-- The first `n` chunks of a stream are its first `16 * n` bytes (44_block_driver.md R173). -/
theorem flatMap_streamChunk (bytes : List Byte) (n : Nat) :
    (List.range n).flatMap (streamChunk bytes) = bytes.take (16 * n) := by
  induction n with
  | zero => rfl
  | succ n ih =>
    rw [List.range_succ, List.flatMap_append, ih, List.flatMap_singleton, streamChunk, Nat.mul_succ,
      List.take_add]

theorem length_streamChunk {bytes : List Byte} {b : Nat} (h : b < bytes.length / 16) :
    (streamChunk bytes b).length = 16 := by
  rw [streamChunk, List.length_take, List.length_drop]
  omega

/-- Settles O54: the full chunks are the stream up to its tail, and the last block is the padded tail. -/
theorem streamBlocksHoldTheStream : Obligations.StreamBlocksHoldTheStream := by
  intro bytes
  have htail := length_streamTail bytes
  have hlast := blockBytes_pad_blockOfList (bytes := streamTail bytes) (by omega)
  rw [htail] at hlast
  have hchunks : (List.range (bytes.length / 16)).flatMap
      (fun b => blockBytes (blockOfList (streamChunk bytes b))) = bytes.take (16 * (bytes.length / 16)) := by
    rw [← flatMap_streamChunk]
    exact List.flatMap_congr fun b hb => blockBytes_blockOfList (length_streamChunk (List.mem_range.mp hb))
  calc (streamBlocks bytes).flatMap blockBytes
      = bytes.take (16 * (bytes.length / 16)) ++ (streamTail bytes ++
          List.replicate (16 - bytes.length % 16) (BitVec.ofNat 8 (16 - bytes.length % 16))) := by
        rw [streamBlocks, List.flatMap_append, List.flatMap_map, hchunks, List.flatMap_singleton, hlast]
    _ = _ := by rw [streamTail, ← List.append_assoc, List.take_append_drop]

/-! ### The run -/

/-- Encrypting commands offered back to back under a valid key are done in 11 edges each, their ciphertexts
on record in order (44_block_driver.md R175). -/
theorem encrypts_run {nothingElse : Prop} {is : List Instr} {Ps : List Block}
    (h : List.Forall₂ EncryptsBlock is Ps) {s : State} (hp : s.phase = .idle) (hk : s.keyValid = true)
    (hplan : Pending nothingElse (is.map encode) s.script) :
    ∃ t, RunsOn s (11 * Ps.length) t ∧ t.phase = .idle ∧ Pending nothingElse [] t.script ∧ t.W = s.W ∧
      t.keyValid = true ∧ t.doutLog = s.doutLog ++ Ps.map (encryptWith s.W) := by
  induction h generalizing s with
  | nil => exact ⟨s, RunsOn.refl s, hp, hplan, rfl, hk, (List.append_nil _).symm⟩
  | @cons i P is Ps hi _ ih =>
    obtain ⟨t, ht, hW, hkey, -, -, -, hlog⟩ := commandRun_encrypts hi hp hk hplan
    obtain ⟨u, hrun, hidle, hpending, hW', hkey', hlog'⟩ := ih ht.idle hkey ht.pending
    have hedges : 11 * (P :: Ps).length = 11 + 11 * Ps.length := by rw [List.length_cons]; omega
    refine ⟨u, hedges ▸ ht.runsOn.trans hrun, hidle, hpending, hW'.trans hW, hkey', ?_⟩
    rw [hlog', hlog, hW, List.append_assoc, List.map_cons]
    rfl

/-- The commands of a stream: ENCRYPT for each full chunk, ENCRYPT_PAD for the tail (44_block_driver.md
R173). -/
def streamInstrs (bytes : List Byte) : List Instr :=
  (List.range (bytes.length / 16)).map (fun b => .encrypt 0 0 (wordOf (blockOfList (streamChunk bytes b)))) ++
    [.encryptPad (BitVec.ofNat 4 (bytes.length % 16)) 0 (wordOf (blockOfList (streamTail bytes)))]

theorem streamActions_eq_map_offer (bytes : List Byte) :
    streamActions bytes = ((streamInstrs bytes).map encode).map .offer := by
  simp [streamActions, streamInstrs, encAction, encPadAction]

/-- Command by command a stream's commands encrypt its blocks: a block survives the port. -/
theorem streamInstrs_encrypt_streamBlocks (bytes : List Byte) :
    List.Forall₂ EncryptsBlock (streamInstrs bytes) (streamBlocks bytes) := by
  refine List.rel_append ?_ (.cons (.inr ⟨_, _, _, rfl, by rw [bytesOf_wordOf]⟩) .nil)
  rw [List.forall₂_map_left_iff, List.forall₂_map_right_iff, List.forall₂_same]
  exact fun b _ => .inl ⟨0, 0, _, rfl, (bytesOf_wordOf _).symm⟩

theorem length_streamBlocks (bytes : List Byte) : (streamBlocks bytes).length = bytes.length / 16 + 1 := by
  simp [streamBlocks]

/-- Settles O53: the run of a stream's commands, which are all of its plan. -/
theorem streamRun : Obligations.StreamRun := by
  intro s bytes hp hk hs
  have hplan : Pending True ((streamInstrs bytes).map encode) s.script := by
    rw [hs.trans (streamActions_eq_map_offer bytes)]
    exact pending_offers _
  obtain ⟨t, hrun, hidle, hpending, hW, hkey, hlog⟩ :=
    encrypts_run (streamInstrs_encrypt_streamBlocks bytes) hp hk hplan
  rw [length_streamBlocks] at hrun
  exact ⟨t, hrun.endsAt (hpending.runOver hidle), hpending.eq_nil trivial, hW, hkey, hlog,
    length_streamBlocks bytes⟩

end Sys2Proof.Machine
end
